-- ==== Sys2Proof/Word.lean ====
section
/-! DEFINITION. The word of the machine. Every register, memory byte, image byte, immediate and data address is an
unsigned 8-bit value (00_scope.md R7, R10); instructions are made of such bytes (30_encoding.md R59). -/

namespace Sys2Proof

/-- An 8-bit unsigned value (R7: register width `W` = 8). -/
abbrev Byte := BitVec 8

end Sys2Proof
end

