-- ==== Sys2Proof/Config.lean ====
section
/-! DEFINITION. The parameters the spec leaves open (00_scope.md R8; 92_eei_decisions.md D1, D3, D5, D8, D9, D10); their
default values stand in Decode.lean (`ALU_CODES`) and Machine/Defaults.lean. One `Config` is fixed for one machine. `MEM_INIT` (D16), the image and
`STEP_LIMIT` (D15) are arguments of the host's transactions and stand in Machine/HostInterface.lean. -/

namespace Sys2Proof

/-- The seven executable ALU operations, in the order of R15. `CMP` is not one of them: it is never executed (R133). -/
inductive AluOp where
  | add | shr | shl | not | and | or | xor
deriving DecidableEq, Repr

/-- `ALU_CODES` (D1): which operation each 3-bit code `CCC` names, for the codes 000 to 110. Code 111 is `CMP` under
every assignment (R70, R76). -/
structure AluCodes where
  c000 : AluOp
  c001 : AluOp
  c010 : AluOp
  c011 : AluOp
  c100 : AluOp
  c101 : AluOp
  c110 : AluOp
deriving DecidableEq, Repr

/-- `ST_ROLES` (D3): `table` stores `x[ra]` at `x[rb]`; `swapped` stores `x[rb]` at `x[ra]`. -/
inductive StRoles where
  | table | swapped
deriving DecidableEq, Repr

/-- `SHIFT_FILL` (D8): the bit that enters a shift, 0 or the old C. -/
inductive ShiftFill where
  | zero | oldC
deriving DecidableEq, Repr

/-- `NOT_CARRY` (D9): C after `NOT`, false or unchanged. -/
inductive NotCarry where
  | clear | unchanged
deriving DecidableEq, Repr

/-- The open parameters of R8 that the core itself reads. -/
structure Config where
  aluCodes       : AluCodes
  stRoles        : StRoles
  shiftFill      : ShiftFill
  notCarry       : NotCarry
  emptyMaskTaken : Bool
  memSize        : Nat
deriving DecidableEq, Repr

end Sys2Proof
end

