-- ==== Sys2Proof/Syntax.lean ====
section
/-! DEFINITION. Instructions as data: one constructor per row of spec/opcode_table.json (30_encoding.md R60, R74).
Register numbers and the ALU operation are already decoded; immediates, targets and the `JIF` mask stay bits. -/

namespace Sys2Proof

/-- The general registers (R17). -/
inductive Reg where
  | r0 | r1 | r2 | r3
deriving DecidableEq, Repr

/-- The instructions. `ra` is the register of bits 3:2, `rb` of bits 1:0 (R12); `m` is the condition mask, C in bit 3
and Z in bit 0 (R66); `x` and `t` are the operand byte (R63, R65, R66). -/
inductive Instr where
  | end_
  | add  (ra rb : Reg)
  | shr  (ra rb : Reg)
  | shl  (ra rb : Reg)
  | not  (ra rb : Reg)
  | and  (ra rb : Reg)
  | or   (ra rb : Reg)
  | xor  (ra rb : Reg)
  | cmp  (ra rb : Reg)
  | ld   (ra rb : Reg)
  | st   (ra rb : Reg)
  | data (rb : Reg) (x : Byte)
  | jmpr (rb : Reg)
  | jmp  (t : Byte)
  | jif  (m : BitVec 4) (t : Byte)
  | clf
deriving DecidableEq, Repr

/-- The operation and operands of an executable ALU instruction; `none` for every other instruction (`CMP` too). -/
def Instr.asAlu : Instr → Option (AluOp × Reg × Reg)
  | .add ra rb => some (.add, ra, rb)
  | .shr ra rb => some (.shr, ra, rb)
  | .shl ra rb => some (.shl, ra, rb)
  | .not ra rb => some (.not, ra, rb)
  | .and ra rb => some (.and, ra, rb)
  | .or ra rb  => some (.or, ra, rb)
  | .xor ra rb => some (.xor, ra, rb)
  | .end_ => none
  | .cmp _ _ => none
  | .ld _ _ => none
  | .st _ _ => none
  | .data _ _ => none
  | .jmpr _ => none
  | .jmp _ => none
  | .jif _ _ => none
  | .clf => none

end Sys2Proof
end

