-- ==== Sys2Proof/WellFormed.lean ====
section
/-! DEFINITION. What makes a configuration and an instruction well formed. A configuration: `ALU_CODES` is a bijection
(D1) and `MEM_SIZE` is 1..256 (D5). An instruction: it has an encoding, which only the ALU operation of code 100 with
both operands R3 lacks, because its byte 0xCF is `END` (30_encoding.md R73, R91; 90_conflicts.md C1). -/

namespace Sys2Proof

/-- `ALU_CODES` is a bijection from the codes 0..6 to the seven operations (D1): no operation stands twice. -/
abbrev AluCodes.wf (k : AluCodes) : Prop :=
  [k.c000, k.c001, k.c010, k.c011, k.c100, k.c101, k.c110].Nodup

/-- A configuration within the ranges of R8. -/
abbrev Config.wf (c : Config) : Prop :=
  c.aluCodes.wf ∧ 1 ≤ c.memSize ∧ c.memSize ≤ 256

/-- An instruction that has an encoding under `k`: every instruction but the operation of code 100 on R3, R3 (R73).
`CMP` is well formed in this sense: its bytes exist and a machine can meet them (R76). -/
abbrev Instr.wf (k : AluCodes) (i : Instr) : Prop :=
  i.asAlu ≠ some (k.c100, .r3, .r3)

end Sys2Proof
end

