-- ==== Sys2Proof/Decode.lean ====
section
/-! DEFINITION. The decoder of the first byte (30_encoding.md R72) and of a byte sequence, total and rejecting by name;
the encoder from the same table (R95); the disassembler (R79); and the host's `decodeTableWord`. -/

namespace Sys2Proof

/-- The 2-bit index of a register (R17, R68). -/
def Reg.bits : Reg → BitVec 2
  | .r0 => 0#2
  | .r1 => 1#2
  | .r2 => 2#2
  | .r3 => 3#2

/-- The register a 2-bit index selects (R17, R68). -/
def Reg.ofBits (v : BitVec 2) : Reg :=
  match v.toNat with
  | 0 => .r0
  | 1 => .r1
  | 2 => .r2
  | _ => .r3

/-- The default assignment of R70 (D1). -/
def AluCodes.default : AluCodes :=
  { c000 := .add, c001 := .shr, c010 := .shl, c011 := .not, c100 := .and, c101 := .or, c110 := .xor }

/-- The instruction of an ALU operation (format ALU, R61). -/
def Instr.alu : AluOp → Reg → Reg → Instr
  | .add, ra, rb => .add ra rb
  | .shr, ra, rb => .shr ra rb
  | .shl, ra, rb => .shl ra rb
  | .not, ra, rb => .not ra rb
  | .and, ra, rb => .and ra rb
  | .or,  ra, rb => .or ra rb
  | .xor, ra, rb => .xor ra rb

/-- The length of an instruction in bytes (R59, R71). -/
def Instr.size : Instr → Nat
  | .end_ => 1
  | .add _ _ => 1
  | .shr _ _ => 1
  | .shl _ _ => 1
  | .not _ _ => 1
  | .and _ _ => 1
  | .or _ _  => 1
  | .xor _ _ => 1
  | .cmp _ _ => 1
  | .ld _ _ => 1
  | .st _ _ => 1
  | .data _ _ => 2
  | .jmpr _ => 1
  | .jmp _ => 2
  | .jif _ _ => 2
  | .clf => 1

/-- The operation a 3-bit code names; `none` for 111, which is `CMP` (R70). -/
def AluCodes.op (k : AluCodes) (c : BitVec 3) : Option AluOp :=
  match c.toNat with
  | 0 => some k.c000
  | 1 => some k.c001
  | 2 => some k.c010
  | 3 => some k.c011
  | 4 => some k.c100
  | 5 => some k.c101
  | 6 => some k.c110
  | _ => none

/-- The 3-bit code of an operation: the inverse of `AluCodes.op` where `k` is a bijection (R70, D1). -/
def AluCodes.code (k : AluCodes) (o : AluOp) : BitVec 3 :=
  if o = k.c000 then 0#3
  else if o = k.c001 then 1#3
  else if o = k.c010 then 2#3
  else if o = k.c011 then 3#3
  else if o = k.c100 then 4#3
  else if o = k.c101 then 5#3
  else 6#3

/-- Bits 6:4, the field `CCC` (R61). -/
def fieldCCC (b : Byte) : BitVec 3 := b.extractLsb' 4 3

/-- Bits 3:2, the register field `AA` (R68). -/
def fieldAA (b : Byte) : Reg := Reg.ofBits (b.extractLsb' 2 2)

/-- Bits 1:0, the register field `BB` (R68). -/
def fieldBB (b : Byte) : Reg := Reg.ofBits (b.extractLsb' 0 2)

/-- Bits 7:4 of the opcode byte, which select the format when bit 7 is 0 (R72). -/
def highNibble (b : Byte) : BitVec 4 := b.extractLsb' 4 4

/-- Bits 3:0, the `JIF` mask (R66). -/
def lowNibble (b : Byte) : BitVec 4 := b.extractLsb' 0 4

/-- A 2-byte instruction whose operand byte is still to be read (R63, R65, R66). -/
inductive Pending where
  | data (rb : Reg)
  | jmp
  | jif (m : BitVec 4)
deriving DecidableEq, Repr

/-- The instruction a pending form becomes with its operand byte, which may hold any value (R69, R78). -/
def Pending.complete : Pending → Byte → Instr
  | .data rb, x => .data rb x
  | .jmp, t => .jmp t
  | .jif m, t => .jif m t

/-- What a first byte decodes to (R72). The spec's `DISABLED` is `complete (.cmp _ _)`. -/
inductive Opcode where
  | invalid
  | complete (i : Instr)
  | pending (p : Pending)
deriving DecidableEq, Repr

/-- The rows of R72 with bit 7 = 0, which no `ALU_CODES` touches. -/
def decodeLow (b : Byte) : Opcode :=
  match (highNibble b).toNat with
  | 0 => .complete (.ld (fieldAA b) (fieldBB b))
  | 1 => .complete (.st (fieldAA b) (fieldBB b))
  | 2 => if b.extractLsb' 2 2 = 0#2 then .pending (.data (fieldBB b)) else .invalid
  | 3 => if b.extractLsb' 2 2 = 0#2 then .complete (.jmpr (fieldBB b)) else .invalid
  | 4 => if lowNibble b = 0#4 then .pending .jmp else .invalid
  | 5 => .pending (.jif (lowNibble b))
  | 6 => if lowNibble b = 0#4 then .complete .clf else .invalid
  | _ => .invalid

/-- The ALU class of R72 (bit 7 = 1): an operation of `k`, or `CMP` for code 111. -/
def decodeAlu (k : AluCodes) (b : Byte) : Instr :=
  match k.op (fieldCCC b) with
  | some o => Instr.alu o (fieldAA b) (fieldBB b)
  | none => .cmp (fieldAA b) (fieldBB b)

/-- The decoder of the first byte (R72): 0xCF first (R73), then the ALU class, then the rows with bit 7 = 0. -/
def decodeOpcode (k : AluCodes) (b : Byte) : Opcode :=
  if b = 0xCF#8 then .complete .end_
  else if b.getLsbD 7 then .complete (decodeAlu k b)
  else decodeLow b

/-- The length of the instruction a first byte starts (R71). R71 gives none to a byte that starts no instruction (R75): the
0 is the model's choice (DESIGN CHOICE, log entry 19). -/
def Opcode.length : Opcode → Nat
  | .invalid => 0
  | .complete _ => 1
  | .pending _ => 2

/-- Why a byte sequence gives no instruction: there is no byte, the first byte matches no opcode (R75), or the operand
byte of a 2-byte instruction is missing (R103). -/
inductive DecodeError where
  | noByte
  | invalidOpcode
  | missingOperand
deriving DecidableEq, Repr

/-- The answer of the decoder: an instruction and the bytes after it, or a reason. -/
inductive Decoded where
  | instr (i : Instr) (rest : List Byte)
  | error (e : DecodeError)
deriving DecidableEq, Repr

/-- The decoder of a byte sequence: one instruction from its front (R59, R72, R103). -/
def decode (k : AluCodes) : List Byte → Decoded
  | [] => .error .noByte
  | b0 :: rest =>
    match decodeOpcode k b0 with
    | .invalid => .error .invalidOpcode
    | .complete i => .instr i rest
    | .pending p =>
      match rest with
      | [] => .error .missingOperand
      | b1 :: rest' => .instr (p.complete b1) rest'

/-- An opcode byte of the shape `1 CCC AA BB` (R61). -/
def aluByte (c : BitVec 3) (ra rb : Reg) : Byte := 1#1 ++ c ++ ra.bits ++ rb.bits

/-- The bytes of an instruction (R95, R60; `CMP`'s own bytes by R76). The ALU instruction that is not well formed has no
encoding of its own: its byte is the one of `END` (R73), and the assembler refuses it (R91). -/
def encode (k : AluCodes) : Instr → List Byte
  | .end_ => [0xCF#8]
  | .add ra rb => [aluByte (k.code .add) ra rb]
  | .shr ra rb => [aluByte (k.code .shr) ra rb]
  | .shl ra rb => [aluByte (k.code .shl) ra rb]
  | .not ra rb => [aluByte (k.code .not) ra rb]
  | .and ra rb => [aluByte (k.code .and) ra rb]
  | .or ra rb  => [aluByte (k.code .or) ra rb]
  | .xor ra rb => [aluByte (k.code .xor) ra rb]
  | .cmp ra rb => [aluByte 7#3 ra rb]
  | .ld ra rb  => [0x0#4 ++ ra.bits ++ rb.bits]
  | .st ra rb  => [0x1#4 ++ ra.bits ++ rb.bits]
  | .data rb x => [0x08#6 ++ rb.bits, x]
  | .jmpr rb   => [0x0C#6 ++ rb.bits]
  | .jmp t     => [0x40#8, t]
  | .jif m t   => [0x5#4 ++ m, t]
  | .clf       => [0x60#8]

/-- Disassembly (R79): the instructions of an image read from its front. R79 gives it on the encodings of programs only.
For other bytes it is the model's choice (DESIGN CHOICE, log entry 19): `none` for the whole image where a byte starts no
instruction or the end cuts off a 2-byte instruction, and `CMP` for a disabled byte. -/
def disassemble (k : AluCodes) : List Byte → Option (List Instr)
  | [] => some []
  | b0 :: rest =>
    match decodeOpcode k b0 with
    | .invalid => none
    | .complete i => (disassemble k rest).map (fun is => i :: is)
    | .pending p =>
      match rest with
      | [] => none
      | b1 :: rest' => (disassemble k rest').map (fun is => p.complete b1 :: is)

/-- The first two bytes of an instruction whose bits are `w`, numbered as spec/opcode_table.json numbers them: the byte
at the lower offset is bits 7:0 (R44); every bit from `nbits` on is 0. -/
def tableBytes (nbits w : Nat) : List Byte :=
  [BitVec.ofNat 8 (w % 2 ^ nbits), BitVec.ofNat 8 (w % 2 ^ nbits / 256)]

/-- The host's reading of a table word: what the decoder gives for its bytes under the default `ALU_CODES`. -/
def decodeTableWord (nbits w : Nat) : Option Instr :=
  match decode AluCodes.default (tableBytes nbits w) with
  | .instr i _ => some i
  | .error _ => none

end Sys2Proof
end

