-- ==== Sys2Proof/Machine/Defaults.lean ====
section
/-! DEFINITION. The default of every parameter (00_scope.md R8). Each is a decision the spec marks as its own. -/

namespace Sys2Proof

/-- Every parameter at the default value of R8. -/
def Config.default : Config :=
  { aluCodes := AluCodes.default, stRoles := .table, shiftFill := .zero, notCarry := .clear,
    emptyMaskTaken := true, memSize := 256 }

end Sys2Proof
end

