-- ==== Sys2Proof/Machine/State.lean ====
section
/-! DEFINITION. The state of the core as plain data (10_state.md): the tuple `(x, F, pc, run, fault, Mem, Img, L)` and,
beside it, the machine's fixed parameters. `L` is the length of `Img` and is not stored twice. The opcode byte, operand
byte and decoded instruction of R38 exist only inside a step and are no field. -/

namespace Sys2Proof.Machine

/-- The four 8-bit general registers (R17). -/
structure Regs where
  r0 : Byte
  r1 : Byte
  r2 : Byte
  r3 : Byte
deriving DecidableEq, Repr

/-- The flag register, one record of four booleans: C, A, E, Z (R27). -/
structure Flags where
  c : Bool
  a : Bool
  e : Bool
  z : Bool
deriving DecidableEq, Repr

/-- The run state (R32). `execute` exists only inside a step (R33). -/
inductive RunState where
  | fetch
  | execute
  | halted
  | faulted
deriving DecidableEq, Repr

/-- The kinds of the fault record (R34, R148). -/
inductive FaultKind where
  | none
  | invalidOpcode
  | addressOutOfRange
  | decodeDisabledOpcode
deriving DecidableEq, Repr

/-- The fault record: the kind and the offset of the faulting instruction's first byte (R34, R151). -/
structure FaultRecord where
  kind : FaultKind
  pc   : Nat
deriving DecidableEq, Repr

/-- The data memory (R37, R42): the bytes that differ from what an unlisted address reads as, by rising address. -/
abbrev Memory := List Host.Cell

/-- The state. `pc` is an image offset 0..256, no wrapping register (R22, D7), so a natural number. `img` is the image,
`L` its length (R36). `cfg` holds the parameters of R8; no step changes it. -/
structure State where
  regs  : Regs
  flags : Flags
  pc    : Nat
  run   : RunState
  fault : FaultRecord
  mem   : Memory
  img   : List Byte
  cfg   : Config
deriving DecidableEq, Repr

/-- Why a step stops without a next state. The three faults of the spec are NOT here: each is a next state, in which
the run state is FAULTED and the fault record is written (60_exceptions.md R151). -/
inductive Fault where
  /-- Raised by `step` in a state whose run state is EXECUTE. Between steps no such state exists (R33), and the spec
  gives a step from it no effect. Safe: no state a run reaches raises it. -/
  | stepInsideStep
deriving DecidableEq, Repr

/-- Why the core refuses. No step from a loaded core refuses. -/
inductive Refusal where
  /-- Raised by an arm of `exec` for an instruction that has no meaning yet; no arm raises it. Safe. -/
  | notModelled (mnemonic : String)
  /-- Raised by the host's `Step` and `Run` before a `Load` (R108, D28). Safe: the spec itself refuses. -/
  | notLoaded
  /-- Raised by the host's `Load` for an image of more than 256 bytes (R107, D6). Safe: the spec itself refuses. -/
  | imageTooLong
  /-- Raised by the host's `Load` for a `mem_init` longer than `MEM_SIZE` (R107, D16). Safe: the spec itself refuses. -/
  | memInitTooLong
deriving DecidableEq, Repr

/-- The reset values of R168 for a given configuration, image and initial data memory. -/
def State.initial (cfg : Config) (img : List Byte) (mem : Memory) : State :=
  { regs := { r0 := 0#8, r1 := 0#8, r2 := 0#8, r3 := 0#8 }
    flags := { c := false, a := false, e := false, z := false }
    pc := 0
    run := .fetch
    fault := { kind := .none, pc := 0 }
    mem := mem
    img := img
    cfg := cfg }

/-- The machine right after reset: every value of R168, the default parameters, the empty image (`L` = 0) and no
pre-loaded memory. Reset is the `Load` transaction (R167); which image it carries is the host's. -/
def State.reset : State := State.initial Config.default [] []

end Sys2Proof.Machine
end

