-- ==== Sys2Proof/Machine/Ops.lean ====
section
/-! DEFINITION. The named operations over registers, data memory, image, program counter and run state (00_scope.md R11),
and the one shared way to take a fault (60_exceptions.md R151). There is no return from a fault (R157): only a new `Load`
leaves FAULTED (Machine/HostInterface.lean). -/

namespace Sys2Proof.Machine

/-- Read a register (R17). No register is hard-wired (R18). -/
def Regs.get (x : Regs) : Reg → Byte
  | .r0 => x.r0
  | .r1 => x.r1
  | .r2 => x.r2
  | .r3 => x.r3

/-- Write a register (R17). -/
def Regs.set (x : Regs) (r : Reg) (v : Byte) : Regs :=
  match r with
  | .r0 => { x with r0 := v }
  | .r1 => { x with r1 := v }
  | .r2 => { x with r2 := v }
  | .r3 => { x with r3 := v }

/-- What a byte of data memory that nothing has written reads as: 0 (R37, R168 "memory zeroed"). -/
def Memory.unlisted (_addr : Nat) : Byte := 0#8

/-- The canonical form: addresses strictly rising, no entry equal to what an unlisted address reads as. -/
abbrev Memory.wf (m : Memory) : Prop :=
  m.Pairwise (fun c d => c.1 < d.1) ∧ ∀ c ∈ m, c.2 ≠ Memory.unlisted c.1

/-- Every listed address lies below `size` (R42). -/
abbrev Memory.below (m : Memory) (size : Nat) : Prop := ∀ c ∈ m, c.1 < size

/-- Read one byte. -/
def Memory.read : Memory → Nat → Byte
  | [], addr => Memory.unlisted addr
  | c :: m, addr => if addr = c.1 then c.2 else Memory.read m addr

/-- An entry for `addr` in front of `m`, left out where it would say what an unlisted address reads as. -/
def Memory.cons (addr : Nat) (v : Byte) (m : Memory) : Memory :=
  if v = Memory.unlisted addr then m else (addr, v) :: m

/-- Write one byte, keeping the canonical form. -/
def Memory.write : Memory → Nat → Byte → Memory
  | [], addr, v => Memory.cons addr v []
  | c :: m, addr, v =>
    if addr < c.1 then Memory.cons addr v (c :: m)
    else if addr = c.1 then Memory.cons addr v m
    else c :: Memory.write m addr v

/-- `m` with the bytes written from address `base` upwards (the pre-loaded contents of R107, D16). -/
def Memory.fill (m : Memory) (base : Nat) : List Byte → Memory
  | [] => m
  | v :: vs => Memory.fill (Memory.write m base v) (base + 1) vs

/-- `x[r]` (R11). -/
def State.reg (s : State) (r : Reg) : Byte := s.regs.get r

/-- `x[r] <- v` (R11). -/
def State.setReg (s : State) (r : Reg) (v : Byte) : State := { s with regs := s.regs.set r v }

/-- `F <- f`, all four flags in one update (R11, R27). -/
def State.setFlags (s : State) (f : Flags) : State := { s with flags := f }

/-- `pc <- target` (R11). -/
def State.setPc (s : State) (target : Nat) : State := { s with pc := target }

/-- `run <- r` (R99). -/
def State.setRun (s : State) (r : RunState) : State := { s with run := r }

/-- The stored byte of R48, once the address is known to be in range. -/
def State.setMem (s : State) (addr : Nat) (v : Byte) : State := { s with mem := s.mem.write addr v }

/-- `MemRead(addr, 1)` (R47): the byte, or `none` where the address is out of range. The address register's value is
the address itself (R43). -/
def State.memRead (s : State) (addr : Byte) : Option Byte :=
  if addr.toNat < s.cfg.memSize then some (s.mem.read addr.toNat) else none

/-- `MemWrite(addr, 1, v)` (R48): the state with the byte written, or `none` where the address is out of range. -/
def State.memWrite (s : State) (addr v : Byte) : Option State :=
  if addr.toNat < s.cfg.memSize then some (s.setMem addr.toNat v) else none

/-- `L`, the length of the image (R36). -/
def State.imgLen (s : State) : Nat := s.img.length

/-- `Fetch(p)` (R101): byte `p` of the image, or `none` where `p >= L`. -/
def State.fetchByte (s : State) (p : Nat) : Option Byte := s.img[p]?

/-- `raise kind(pc0)` (R151): the step ends in FAULTED with the kind and `pc0` recorded; registers, flags, memory and
`pc` keep their values. During a step `pc` still holds `pc0` when a fault is raised (R104, R151). -/
def State.raise (s : State) (kind : FaultKind) : State :=
  { s with run := .faulted, fault := { kind := kind, pc := s.pc } }

end Sys2Proof.Machine
end

