-- ==== Sys2Proof/Machine/Flags.lean ====
section
/-! DEFINITION. The flags: their packing (10_state.md R31), the `JIF` condition (43_control.md R143), and the ALU function
with its four flag outputs (41_alu.md R118, R119). -/

namespace Sys2Proof.Machine

/-- `{C, A, E, Z}`, C in bit 3 (R31). -/
def Flags.pack (f : Flags) : BitVec 4 :=
  BitVec.ofBool f.c ++ BitVec.ofBool f.a ++ BitVec.ofBool f.e ++ BitVec.ofBool f.z

/-- All four flags false (R30, R144). -/
def Flags.cleared : Flags := { c := false, a := false, e := false, z := false }

/-- The condition of `JIF` (R143): every flag the mask selects is true. A mask that selects none is taken, unless
`EMPTY_MASK_TAKEN` is false (D10). -/
def condHolds (cfg : Config) (m : BitVec 4) (f : Flags) : Bool :=
  if m = 0#4 then cfg.emptyMaskTaken
  else (!m.getLsbD 3 || f.c) && (!m.getLsbD 2 || f.a) && (!m.getLsbD 1 || f.e) && (!m.getLsbD 0 || f.z)

/-- The bit that enters a shift: 0, or the old C under `SHIFT_FILL` = `OLD_C` (R119, D8). -/
def fillBit (cfg : Config) (oldC : Bool) : Bool :=
  match cfg.shiftFill with
  | .zero => false
  | .oldC => oldC

/-- C after `NOT`: false, or the old C under `NOT_CARRY` = `UNCHANGED` (R124, D9). -/
def notCarryBit (cfg : Config) (oldC : Bool) : Bool :=
  match cfg.notCarry with
  | .clear => false
  | .unchanged => oldC

/-- The ALU's result `r` (R119). -/
def aluResult (cfg : Config) (oldC : Bool) (o : AluOp) (a b : Byte) : Byte :=
  match o with
  | .add => a + b
  | .shr => BitVec.ofBool (fillBit cfg oldC) ++ b.extractLsb' 1 7
  | .shl => b.extractLsb' 0 7 ++ BitVec.ofBool (fillBit cfg oldC)
  | .not => ~~~b
  | .and => a &&& b
  | .or  => a ||| b
  | .xor => a ^^^ b

/-- The ALU's carry `c` (R119): the carry out of `ADD`, the bit a shift drops, false for the logical operations. -/
def aluCarry (cfg : Config) (oldC : Bool) (o : AluOp) (a b : Byte) : Bool :=
  match o with
  | .add => decide (256 ≤ a.toNat + b.toNat)
  | .shr => b.getLsbD 0
  | .shl => b.getLsbD 7
  | .not => notCarryBit cfg oldC
  | .and => false
  | .or  => false
  | .xor => false

/-- The four flags of an ALU operation (R118, R119): A and E compare the operands as unsigned numbers, Z is that the
result is 0. -/
def aluFlags (cfg : Config) (oldC : Bool) (o : AluOp) (a b : Byte) : Flags :=
  { c := aluCarry cfg oldC o a b
    a := decide (b.toNat < a.toNat)
    e := decide (a = b)
    z := decide (aluResult cfg oldC o a b = 0#8) }

end Sys2Proof.Machine
end

