-- ==== Sys2Proof/Machine/Alu.lean ====
section
/-! DEFINITION. The ALU as a combinational block (41_alu.md R117, R132) and the meanings of the ALU instructions and of
the disabled `CMP` (R120 to R127, R133). -/

namespace Sys2Proof.Machine

/-- The outputs of the block that an enabled operation drives: `r` and the four flag values (R117). -/
structure AluOut where
  r     : Byte
  flags : Flags
deriving DecidableEq, Repr

/-- The block's output ports. `out` is `none` for `op` = 111, where only `dis` has a value (R132). -/
structure AluPorts where
  dis : Bool
  out : Option AluOut
deriving DecidableEq, Repr

/-- The ALU block (R117): a function of its inputs alone. The input `oldC` is read only under `SHIFT_FILL` = `OLD_C` or
`NOT_CARRY` = `UNCHANGED` (D8, D9); with the default parameters the outputs are a function of `op`, `a` and `b`. -/
def aluBlock (cfg : Config) (oldC : Bool) (op : BitVec 3) (a b : Byte) : AluPorts :=
  match cfg.aluCodes.op op with
  | some o => { dis := false, out := some { r := aluResult cfg oldC o a b, flags := aluFlags cfg oldC o a b } }
  | none => { dis := true, out := none }

/-- The execution common to the ALU instructions (R120): both operands are read before `rb` is written. -/
def execAlu (o : AluOp) (ra rb : Reg) (s : State) : Host.Outcome State Fault Refusal :=
  let a := s.reg ra
  let b := s.reg rb
  .next (((s.setReg rb (aluResult s.cfg s.flags.c o a b)).setFlags (aluFlags s.cfg s.flags.c o a b)).setPc (s.pc + 1))

/-- `ADD RA RB` (R121). -/
def execAdd (ra rb : Reg) (s : State) : Host.Outcome State Fault Refusal := execAlu .add ra rb s

/-- `SHR RA RB` (R122). -/
def execShr (ra rb : Reg) (s : State) : Host.Outcome State Fault Refusal := execAlu .shr ra rb s

/-- `SHL RA RB` (R123). -/
def execShl (ra rb : Reg) (s : State) : Host.Outcome State Fault Refusal := execAlu .shl ra rb s

/-- `NOT RA RB` (R124). -/
def execNot (ra rb : Reg) (s : State) : Host.Outcome State Fault Refusal := execAlu .not ra rb s

/-- `AND RA RB` (R125). -/
def execAnd (ra rb : Reg) (s : State) : Host.Outcome State Fault Refusal := execAlu .and ra rb s

/-- `OR RA RB` (R126). -/
def execOr (ra rb : Reg) (s : State) : Host.Outcome State Fault Refusal := execAlu .or ra rb s

/-- `XOR RA RB` (R127). -/
def execXor (ra rb : Reg) (s : State) : Host.Outcome State Fault Refusal := execAlu .xor ra rb s

/-- `CMP` is not executable: it raises `DecodeDisabledOpcodeFault` and has no other effect (R133, R152). -/
def execCmp (_ra _rb : Reg) (s : State) : Host.Outcome State Fault Refusal := .next (s.raise .decodeDisabledOpcode)

end Sys2Proof.Machine
end

