-- ==== Sys2Proof/Machine/Operands.lean ====
section
/-! DEFINITION. The operand forms: the register-indirect data address of `LD` and `ST` with the operand roles of D3
(42_memory_data.md R136, R137, R139), and the absolute jump targets of `JMP`, `JIF` and `JMPR` (43_control.md R146). -/

namespace Sys2Proof.Machine

/-- The address `LD ra rb` reads: the value of `ra` (R136, R43). -/
def State.ldAddr (s : State) (ra : Reg) : Byte := s.reg ra

/-- The address `ST ra rb` writes: the value of `rb`, or of `ra` under `ST_ROLES` = `SWAPPED` (R137, D3). -/
def State.stAddr (s : State) (ra rb : Reg) : Byte :=
  match s.cfg.stRoles with
  | .table => s.reg rb
  | .swapped => s.reg ra

/-- The byte `ST ra rb` writes: the value of `ra`, or of `rb` under `ST_ROLES` = `SWAPPED` (R137, D3). -/
def State.stValue (s : State) (ra rb : Reg) : Byte :=
  match s.cfg.stRoles with
  | .table => s.reg ra
  | .swapped => s.reg rb

/-- The offset an operand byte names, absolute and without extension (R69). -/
def targetOf (t : Byte) : Nat := t.toNat

/-- The offset `JMPR rb` takes from its register (R140). -/
def State.regTarget (s : State) (rb : Reg) : Nat := targetOf (s.reg rb)

end Sys2Proof.Machine
end

