-- ==== Sys2Proof/Machine/Control.lean ====
section
/-! DEFINITION. The meanings of `JMPR`, `JMP`, `JIF`, `CLF` and `END` (43_control.md R140 to R147). A target beyond the
image is written like any other; the next fetch faults (R147). -/

namespace Sys2Proof.Machine

/-- `JMPR RB` (R140). -/
def execJmpr (rb : Reg) (s : State) : Host.Outcome State Fault Refusal := .next (s.setPc (s.regTarget rb))

/-- `JMP t` (R141). -/
def execJmp (t : Byte) (s : State) : Host.Outcome State Fault Refusal := .next (s.setPc (targetOf t))

/-- `JIF m t` (R142, R143). -/
def execJif (m : BitVec 4) (t : Byte) (s : State) : Host.Outcome State Fault Refusal :=
  .next (s.setPc (if condHolds s.cfg m s.flags then targetOf t else s.pc + 2))

/-- `CLF` (R144). -/
def execClf (s : State) : Host.Outcome State Fault Refusal := .next ((s.setFlags Flags.cleared).setPc (s.pc + 1))

/-- `END` (R145): `pc` moves past the byte and the run state becomes HALTED. -/
def execEnd (s : State) : Host.Outcome State Fault Refusal := .next ((s.setPc (s.pc + 1)).setRun .halted)

end Sys2Proof.Machine
end

