-- ==== Sys2Proof/Machine/Data.lean ====
section
/-! DEFINITION. The meanings of `LD`, `ST` and `DATA` (42_memory_data.md R136 to R139). -/

namespace Sys2Proof.Machine

/-- `LD RA RB` (R136). An address out of range raises before anything is written. -/
def execLd (ra rb : Reg) (s : State) : Host.Outcome State Fault Refusal :=
  match s.memRead (s.ldAddr ra) with
  | some v => .next ((s.setReg rb v).setPc (s.pc + 1))
  | none => .next (s.raise .addressOutOfRange)

/-- `ST RA RB` (R137, D3). An address out of range raises before anything is written. -/
def execSt (ra rb : Reg) (s : State) : Host.Outcome State Fault Refusal :=
  match s.memWrite (s.stAddr ra rb) (s.stValue ra rb) with
  | some t => .next (t.setPc (s.pc + 1))
  | none => .next (s.raise .addressOutOfRange)

/-- `DATA RB x` (R138). -/
def execData (rb : Reg) (x : Byte) (s : State) : Host.Outcome State Fault Refusal :=
  .next ((s.setReg rb x).setPc (s.pc + 2))

end Sys2Proof.Machine
end

