-- ==== Sys2Proof/Machine/Dispatch.lean ====
section
/-! DEFINITION. One arm per instruction: the `execute(d, b1)` of 40_fetch_execute.md R99. -/

namespace Sys2Proof.Machine

def exec (i : Instr) (s : State) : Host.Outcome State Fault Refusal :=
  match i with
  | .end_ => Sys2Proof.Machine.execEnd s
  | .add ra rb => Sys2Proof.Machine.execAdd ra rb s
  | .shr ra rb => Sys2Proof.Machine.execShr ra rb s
  | .shl ra rb => Sys2Proof.Machine.execShl ra rb s
  | .not ra rb => Sys2Proof.Machine.execNot ra rb s
  | .and ra rb => Sys2Proof.Machine.execAnd ra rb s
  | .or ra rb => Sys2Proof.Machine.execOr ra rb s
  | .xor ra rb => Sys2Proof.Machine.execXor ra rb s
  | .cmp ra rb => Sys2Proof.Machine.execCmp ra rb s
  | .ld ra rb => Sys2Proof.Machine.execLd ra rb s
  | .st ra rb => Sys2Proof.Machine.execSt ra rb s
  | .data rb x => Sys2Proof.Machine.execData rb x s
  | .jmpr rb => Sys2Proof.Machine.execJmpr rb s
  | .jmp t => Sys2Proof.Machine.execJmp t s
  | .jif m t => Sys2Proof.Machine.execJif m t s
  | .clf => Sys2Proof.Machine.execClf s

end Sys2Proof.Machine
end

