-- ==== Sys2Proof/Machine/Fetch.lean ====
section
/-! DEFINITION. The fetch and decode half of a step (40_fetch_execute.md R99 to R103), the two changes of run state
around execution (R97, R105), and where the host places an instruction word. -/

namespace Sys2Proof.Machine

/-- What the fetch half of a step answers: the decoded instruction, or the fault it raises. -/
inductive Fetched where
  | instr (i : Instr)
  | fault (kind : FaultKind)
deriving DecidableEq, Repr

/-- Read and decode the instruction at `pc`, with the checks in the order of R153: first-byte range, decode of the first
byte, operand-byte range. (`CMP` is fetched as an instruction: its meaning raises the fault, and it reads no operand.) -/
def State.fetchInstr (s : State) : Fetched :=
  match s.fetchByte s.pc with
  | none => .fault .addressOutOfRange
  | some b0 =>
    match decodeOpcode s.cfg.aluCodes b0 with
    | .invalid => .fault .invalidOpcode
    | .complete i => .instr i
    | .pending p =>
      match s.fetchByte (s.pc + 1) with
      | none => .fault .addressOutOfRange
      | some b1 => .instr (p.complete b1)

/-- End of step (R105): a run state still EXECUTE returns to FETCH; HALTED and FAULTED stay. -/
def State.endStep (s : State) : State :=
  match s.run with
  | .execute => s.setRun .fetch
  | .fetch => s
  | .halted => s
  | .faulted => s

/-- `img` with `bytes` at offset `p`; offsets below `p` that `img` lacks are filled with 0. -/
def placeBytes (img : List Byte) (p : Nat) (bytes : List Byte) : List Byte :=
  img.take p ++ List.replicate (p - img.length) 0#8 ++ bytes ++ img.drop (p + bytes.length)

end Sys2Proof.Machine
end

