-- ==== Sys2Proof/Machine/Step.lean ====
section
/-! DEFINITION. The step function (40_fetch_execute.md R99) and the host's placing of an instruction word. -/

namespace Sys2Proof.Machine

/-- One step (R99). In HALTED or FAULTED nothing changes (R106). A fault of the fetch half is taken as R151 says. An
instruction executes in EXECUTE and the step ends in FETCH, HALTED or FAULTED (R97, R98, R105). -/
def step (s : State) : Host.Outcome State Fault Refusal :=
  match s.run with
  | .halted => .next s
  | .faulted => .next s
  | .execute => .fault .stepInsideStep
  | .fetch =>
    match s.fetchInstr with
    | .fault kind => .next (s.raise kind)
    | .instr i =>
      match exec i (s.setRun .execute) with
      | .next t => .next t.endStep
      | .fault r => .fault r
      | .refused r => .refused r

/-- `s` with the instruction whose bits are `w` placed in the image at `pc`, in FETCH, so that the next step runs it.
Two bytes are placed, the longest instruction; from bit `nbits` on they are 0. -/
def State.withFetchWord (s : State) (nbits w : Nat) : State :=
  { s with img := placeBytes s.img s.pc (tableBytes nbits w), run := .fetch }

end Sys2Proof.Machine
end

