-- ==== Sys2Proof/Machine/Testbench.lean ====
section
/-! DEFINITION. The testbench of the standalone ALU block (41_alu.md R134, R135): the expected outputs of R119 at the
default parameters, written over natural numbers, and the exhaustive procedure applied to any block. -/

namespace Sys2Proof.Machine

/-- The expected result and carry of R119 for a code 0..6 of R70, over numbers 0..255. -/
def expectedResult (op a b : Nat) : Nat × Bool :=
  match op with
  | 0 => ((a + b) % 256, decide (256 ≤ a + b))
  | 1 => (b / 2, decide (b % 2 = 1))
  | 2 => (b * 2 % 256, decide (128 ≤ b))
  | 3 => (255 - b, false)
  | 4 => (a &&& b, false)
  | 5 => (a ||| b, false)
  | _ => (a ^^^ b, false)

/-- A block answers one vector as R119 says: `dis` = 0, `r` and `c` as expected, and the flags of R118. -/
def vectorPasses (dut : BitVec 3 → Byte → Byte → AluPorts) (op : BitVec 3) (a b : Byte) : Prop :=
  ∃ o, dut op a b = { dis := false, out := some o } ∧
    (o.r.toNat, o.flags.c) = expectedResult op.toNat a.toNat b.toNat ∧
    o.flags.a = decide (b.toNat < a.toNat) ∧ o.flags.e = decide (a.toNat = b.toNat) ∧
    o.flags.z = decide (o.r.toNat = 0)

/-- The testbench procedure (R135): every vector with `op` in 0..6 passes, and `op` = 111 asserts `dis`. -/
def testbenchPasses (dut : BitVec 3 → Byte → Byte → AluPorts) : Prop :=
  (∀ op a b, op ≠ 7#3 → vectorPasses dut op a b) ∧ ∀ a b, (dut 7#3 a b).dis = true

end Sys2Proof.Machine
end

