-- ==== Sys2Proof/Machine/Assembler.lean ====
section
/-! DEFINITION. The assembly language, as the map from a source text to the image it denotes (30_encoding.md R80 to R96;
00_scope.md R4). Source text is a `String`; everything inside works on its characters. -/

namespace Sys2Proof.Machine

/-- The assembly-time errors (R92). They are no faults of the core (60_exceptions.md R166). -/
inductive AsmErrorKind where
  | syntaxError
  | unknownMnemonic
  | disabledOpcode
  | duplicateLabel
  | unknownLabel
  | operandRange
  | unencodableInstruction
  | imageSize
deriving DecidableEq, Repr

/-- An error with its source line number (R92). The spec does not say where the count begins: that the first line is line 1
is the model's choice (DESIGN CHOICE, log entry 18). -/
structure AsmError where
  kind : AsmErrorKind
  line : Nat
deriving DecidableEq, Repr

/-- One source line's content: an instruction with no label operand, a jump to a label, or a `MARK` (R83). -/
inductive Item where
  | instr (i : Instr)
  | jmpTo (label : List Char)
  | jifTo (m : BitVec 4) (label : List Char)
  | mark (label : List Char)
deriving DecidableEq, Repr

/-- The answer for one operand or line. -/
inductive Parsed (α : Type) where
  | ok (x : α)
  | error (k : AsmErrorKind)
deriving DecidableEq, Repr

/-- Chain two parses; the first error stands. -/
def Parsed.bind {α β : Type} (p : Parsed α) (f : α → Parsed β) : Parsed β :=
  match p with
  | .ok x => f x
  | .error k => .error k

/-- Split at every character for which `sep` holds; the pieces between, empty ones too. -/
def splitChars (sep : Char → Bool) : List Char → List (List Char)
  | [] => [[]]
  | ch :: rest =>
    if sep ch then [] :: splitChars sep rest
    else
      match splitChars sep rest with
      | [] => [[ch]]
      | piece :: pieces => (ch :: piece) :: pieces

/-- The part of a line before its comment: a comment runs from `//` to the end of the line (R81). -/
def stripComment : List Char → List Char
  | [] => []
  | '/' :: '/' :: _ => []
  | ch :: rest => ch :: stripComment rest

/-- Spaces and tabs (R80). -/
def isBlankChar (ch : Char) : Bool := ch = ' ' || ch = '\t'

/-- The whitespace-separated tokens of a line (R80). -/
def tokens (line : List Char) : List (List Char) := (splitChars isBlankChar line).filter (fun tok => !tok.isEmpty)

/-- An ASCII letter to its upper case; every other character to itself (R82). -/
def upperChar (ch : Char) : Char := if 'a' ≤ ch ∧ ch ≤ 'z' then Char.ofNat (ch.toNat - 32) else ch

/-- The value of a digit character, 0..35, letters of either case from 10 (R84). -/
def digitValue (ch : Char) : Option Nat :=
  if '0' ≤ ch ∧ ch ≤ '9' then some (ch.toNat - '0'.toNat)
  else if 'a' ≤ ch ∧ ch ≤ 'z' then some (ch.toNat - 'a'.toNat + 10)
  else if 'A' ≤ ch ∧ ch ≤ 'Z' then some (ch.toNat - 'A'.toNat + 10)
  else none

/-- The number the digits of a base denote, from an accumulator; `none` if a character is no digit of the base. -/
def digitsFrom (base : Nat) : Nat → List Char → Option Nat
  | acc, [] => some acc
  | acc, ch :: rest =>
    match digitValue ch with
    | some d => if d < base then digitsFrom base (acc * base + d) rest else none
    | none => none

/-- A non-empty run of digits of a base. -/
def digits (base : Nat) (tok : List Char) : Option Nat := if tok.isEmpty then none else digitsFrom base 0 tok

/-- An unsigned numeral: decimal, `0x` hexadecimal or `0b` binary (R84). Leading zeros change nothing (DESIGN CHOICE, log
entry 16). -/
def numeral : List Char → Option Nat
  | '0' :: 'x' :: ds => digits 16 ds
  | '0' :: 'b' :: ds => digits 2 ds
  | tok => digits 10 tok

/-- The integer literal of `DATA` (R84): out of 0..255, or negative, is an `OperandRangeError`. -/
def parseLiteral : List Char → Parsed Byte
  | '-' :: tok =>
    match numeral tok with
    | some _ => .error .operandRange
    | none => .error .syntaxError
  | tok =>
    match numeral tok with
    | some n => if n < 256 then .ok (BitVec.ofNat 8 n) else .error .operandRange
    | none => .error .syntaxError

/-- A register operand (R83): `R` of either case and decimal digits; an index above 3 is an `OperandRangeError`. The
digits are read as a number, so `R01` is R1: whether leading zeros name a register is open between R17 and R83, and
accepting them is the model's choice (DESIGN CHOICE, log entry 16). -/
def parseReg : List Char → Parsed Reg
  | ch :: ds =>
    if upperChar ch = 'R' then
      match digits 10 ds with
      | some n => if n < 4 then .ok (Reg.ofBits (BitVec.ofNat 2 n)) else .error .operandRange
      | none => .error .syntaxError
    else .error .syntaxError
  | [] => .error .syntaxError

/-- The `JIF` mask (R85): four characters `0` or `1` for C, A, E, Z. -/
def parseMask (tok : List Char) : Parsed (BitVec 4) :=
  if tok.length = 4 ∧ tok.all (fun ch => ch = '0' || ch = '1') then
    .ok (BitVec.ofNat 4 (tok.foldl (fun acc ch => acc * 2 + (if ch = '1' then 1 else 0)) 0))
  else .error .syntaxError

/-- A character a label name may begin with (R86, D23). -/
def isLabelStart (ch : Char) : Bool := ('a' ≤ ch && ch ≤ 'z') || ('A' ≤ ch && ch ≤ 'Z') || ch = '_'

/-- A character a label name may go on with (R86, D23). -/
def isLabelChar (ch : Char) : Bool := isLabelStart ch || ('0' ≤ ch && ch ≤ '9')

/-- A label name (R86), case-sensitive (R82). A numeric target is a `SyntaxError` (R83, D29). -/
def parseLabel : List Char → Parsed (List Char)
  | ch :: rest => if isLabelStart ch && rest.all isLabelChar then .ok (ch :: rest) else .error .syntaxError
  | [] => .error .syntaxError

/-- The instruction, refused where it has no encoding (R91). -/
def encodable (k : AluCodes) (i : Instr) : Parsed Item :=
  if i.wf k then .ok (.instr i) else .error .unencodableInstruction

/-- Two register operands, first `RA`, then `RB` (R83). -/
def parseTwoRegs (k : AluCodes) (mk : Reg → Reg → Instr) (a b : List Char) : Parsed Item :=
  (parseReg a).bind fun ra => (parseReg b).bind fun rb => encodable k (mk ra rb)

/-- The mnemonics of R83, `MARK` among them. -/
inductive Mnemonic where
  | alu (o : AluOp)
  | cmp | ld | st | data | jmpr | jmp | jif | clf | end_ | mark
deriving DecidableEq, Repr

/-- The mnemonics in upper case (R83). -/
def mnemonicTable : List (String × Mnemonic) :=
  [("ADD", .alu .add), ("SHR", .alu .shr), ("SHL", .alu .shl), ("NOT", .alu .not), ("AND", .alu .and), ("OR", .alu .or),
   ("XOR", .alu .xor), ("CMP", .cmp), ("LD", .ld), ("ST", .st), ("DATA", .data), ("JMPR", .jmpr), ("JMP", .jmp),
   ("JIF", .jif), ("CLF", .clf), ("END", .end_), ("MARK", .mark)]

/-- The mnemonic a token names, in either case (R82). -/
def parseMnemonic (tok : List Char) : Parsed Mnemonic :=
  match mnemonicTable.find? (fun row => row.1.toList = tok.map upperChar) with
  | some row => .ok row.2
  | none => .error .unknownMnemonic

/-- The operands of a mnemonic (R83); `CMP` is refused whatever they are (R90). -/
def parseOperands (k : AluCodes) (mnemonic : Mnemonic) (ops : List (List Char)) : Parsed Item :=
  match mnemonic, ops with
  | .alu o, [a, b] => parseTwoRegs k (Instr.alu o) a b
  | .cmp, _ => .error .disabledOpcode
  | .ld, [a, b] => parseTwoRegs k .ld a b
  | .st, [a, b] => parseTwoRegs k .st a b
  | .data, [b, x] => (parseReg b).bind fun rb => (parseLiteral x).bind fun v => .ok (.instr (.data rb v))
  | .jmpr, [b] => (parseReg b).bind fun rb => .ok (.instr (.jmpr rb))
  | .jmp, [l] => (parseLabel l).bind fun name => .ok (.jmpTo name)
  | .jif, [m, l] => (parseMask m).bind fun mask => (parseLabel l).bind fun name => .ok (.jifTo mask name)
  | .clf, [] => .ok (.instr .clf)
  | .end_, [] => .ok (.instr .end_)
  | .mark, [l] => (parseLabel l).bind fun name => .ok (.mark name)
  | _, _ => .error .syntaxError

/-- One line (R80 to R83): `none` for a blank or comment line; a comma outside a comment is a `SyntaxError`. -/
def parseLine (k : AluCodes) (line : List Char) : Parsed (Option Item) :=
  let code := stripComment line
  if code.contains ',' then .error .syntaxError
  else
    match tokens code with
    | [] => .ok none
    | tok :: ops => (parseMnemonic tok).bind fun mn => (parseOperands k mn ops).bind fun it => .ok (some it)

/-- The items of the lines with their line numbers, and the errors, from line number `n` on. Every line counts, blank ones
too (DESIGN CHOICE, log entry 18). -/
def parseLines (k : AluCodes) : Nat → List (List Char) → List (Nat × Item) × List AsmError
  | _, [] => ([], [])
  | n, line :: rest =>
    let (items, errors) := parseLines k (n + 1) rest
    match parseLine k line with
    | .ok none => (items, errors)
    | .ok (some it) => ((n, it) :: items, errors)
    | .error e => (items, { kind := e, line := n } :: errors)

/-- The bytes an item occupies: none for `MARK` (R87). -/
def Item.size : Item → Nat
  | .instr i => i.size
  | .jmpTo _ => 2
  | .jifTo _ _ => 2
  | .mark _ => 0

/-- The symbol table: label names with their offsets. -/
abbrev SymTab := List (List Char × Nat)

/-- The offset a label is bound to. -/
def SymTab.find? : SymTab → List Char → Option Nat
  | [], _ => none
  | (name, off) :: rest, l => if name = l then some off else SymTab.find? rest l

/-- Pass 1 (R87, R88): offsets from 0 in order; a `MARK` binds its name to the offset of the next instruction. A name
already bound is a `DuplicateLabelError` and keeps its first binding. -/
def pass1 : Nat → SymTab → List (Nat × Item) → SymTab × List AsmError
  | _, sym, [] => (sym, [])
  | off, sym, (n, it) :: rest =>
    match it with
    | .mark name =>
      match sym.find? name with
      | none => pass1 off ((name, off) :: sym) rest
      | some _ =>
        let (sym', errors) := pass1 off sym rest
        (sym', { kind := .duplicateLabel, line := n } :: errors)
    | .instr i => pass1 (off + i.size) sym rest
    | .jmpTo _ => pass1 (off + 2) sym rest
    | .jifTo _ _ => pass1 (off + 2) sym rest

/-- The offset of a label operand as an operand byte (R89, D25). -/
def resolve (sym : SymTab) (label : List Char) : Parsed Byte :=
  match sym.find? label with
  | none => .error .unknownLabel
  | some off => if off < 256 then .ok (BitVec.ofNat 8 off) else .error .operandRange

/-- The instruction an item stands for, its label resolved; `none` for `MARK` (R89). -/
def Item.toInstr (sym : SymTab) : Item → Parsed (Option Instr)
  | .instr i => .ok (some i)
  | .jmpTo l => (resolve sym l).bind fun t => .ok (some (.jmp t))
  | .jifTo m l => (resolve sym l).bind fun t => .ok (some (.jif m t))
  | .mark _ => .ok none

/-- Pass 2 (R89) from offset `off`: the instructions in order, and the errors. An instruction that ends beyond offset
256 is reported where it is the first to do so (R93). -/
def pass2 (sym : SymTab) : Nat → List (Nat × Item) → List Instr × List AsmError
  | _, [] => ([], [])
  | off, (n, it) :: rest =>
    let (is, errors) := pass2 sym (off + it.size) rest
    let sizeErrors := if off ≤ 256 ∧ 256 < off + it.size then [{ kind := .imageSize, line := n }] else []
    match it.toInstr sym with
    | .ok none => (is, sizeErrors ++ errors)
    | .ok (some i) => (i :: is, sizeErrors ++ errors)
    | .error e => (is, { kind := e, line := n } :: (sizeErrors ++ errors))

/-- The instructions a source denotes, or every error of it: those of its lines, of pass 1 and of pass 2 (R92). -/
def assembleInstrs (k : AluCodes) (lines : List (List Char)) : Except (List AsmError) (List Instr) :=
  let (items, lineErrors) := parseLines k 1 lines
  let (sym, errors1) := pass1 0 [] items
  let (is, errors2) := pass2 sym 0 items
  match lineErrors ++ errors1 ++ errors2 with
  | [] => .ok is
  | e :: es => .error (e :: es)

/-- The image of a source given as lines: the encodings in program order (R59, R95), or its errors; no image is made
if there is an error (R92). -/
def assembleLines (k : AluCodes) (lines : List (List Char)) : Except (List AsmError) (List Byte) :=
  match assembleInstrs k lines with
  | .ok is => .ok (is.flatMap (encode k))
  | .error es => .error es

/-- The lines of a source text (R80). They end at a line feed (DESIGN CHOICE, log entry 13). -/
def sourceLines (source : String) : List (List Char) := splitChars (fun ch => ch = '\n') source.toList

/-- The image a source text denotes (R80). -/
def assemble (k : AluCodes) (source : String) : Except (List AsmError) (List Byte) := assembleLines k (sourceLines source)

end Sys2Proof.Machine
end

