-- ==== Sys2Proof/Machine/HostInterface.lean ====
section
/-! DEFINITION. The host's transactions (40_fetch_execute.md R107 to R112): `Load`, which is the reset (70_reset_and_
hazards.md R167), `Step`, `Run(limit)` and observation, over a core that may not have been loaded yet (R108). -/

namespace Sys2Proof.Machine

/-- The terminal or non-terminal status `Run` returns (R109). -/
inductive RunStatus where
  | halted
  | faulted (kind : FaultKind) (pc : Nat)
  | stepLimitReached
deriving DecidableEq, Repr

/-- The status a state shows when `Run` returns (R109, R112). -/
def State.status (s : State) : RunStatus :=
  match s.run with
  | .halted => .halted
  | .faulted => .faulted s.fault.kind s.fault.pc
  | .fetch => .stepLimitReached
  | .execute => .stepLimitReached

/-- A run has ended: the run state is HALTED or FAULTED (R116). -/
abbrev State.ended (s : State) : Prop := s.run = .halted ∨ s.run = .faulted

/-- The loop of `Run(limit)` (R109): steps while the run state is FETCH, at most `limit` of them. -/
def runFor : Nat → State → Host.Outcome State Fault Refusal
  | 0, s => .next s
  | n + 1, s =>
    if s.run = .fetch then
      match step s with
      | .next t => runFor n t
      | .fault r => .fault r
      | .refused r => .refused r
    else .next s

/-- `Run(NONE)` from `s` returns with the core in `t` (R109). It need not return for any `t` (R110), so it is a
relation: some number of steps ends the run. -/
def runsToEnd (s t : State) : Prop := ∃ n, runFor n s = .next t ∧ t.ended

/-- The state a `Load` enters (R107, R168), or why the core rejects it. `mem_init` fills the data memory from 0. The
spec gives a rejection no reason and no order: that the reasons are told apart, and that of an image and a `mem_init` both
too long the image is the one named, is the model's choice (DESIGN CHOICE, log entry 17). -/
def State.load (cfg : Config) (image memInit : List Byte) : Except Refusal State :=
  if 256 < image.length then .error .imageTooLong
  else if cfg.memSize < memInit.length then .error .memInitTooLong
  else .ok (State.initial cfg image (Memory.fill [] 0 memInit))

/-- The core as the host holds it: the machine's parameters, and the state once an image is loaded (R108, D28). -/
structure HostCore where
  cfg   : Config
  state : Option State
deriving DecidableEq, Repr

/-- What a transaction answers. -/
inductive Reply where
  | loaded
  | stepped (run : RunState)
  | ran (status : RunStatus)
  | refused (r : Refusal)
  | stuck (f : Fault)
deriving DecidableEq, Repr

/-- The core before any `Load`: it has no state (R108). -/
def HostCore.unloaded (cfg : Config) : HostCore := { cfg := cfg, state := none }

/-- `Load(image, mem_init)` (R107). After a rejected load nothing is loaded and no step may run. -/
def HostCore.load (h : HostCore) (image : List Byte) (memInit : List Byte := []) : HostCore × Reply :=
  match State.load h.cfg image memInit with
  | .ok s => ({ h with state := some s }, .loaded)
  | .error r => ({ h with state := none }, .refused r)

/-- `Step()` (R108). -/
def HostCore.step (h : HostCore) : HostCore × Reply :=
  match h.state with
  | none => (h, .refused .notLoaded)
  | some s =>
    match Sys2Proof.Machine.step s with
    | .next t => ({ h with state := some t }, .stepped t.run)
    | .fault f => (h, .stuck f)
    | .refused r => (h, .refused r)

/-- `Run(limit)` for a number `limit` (R109). -/
def HostCore.run (h : HostCore) (limit : Nat) : HostCore × Reply :=
  match h.state with
  | none => (h, .refused .notLoaded)
  | some s =>
    match runFor limit s with
    | .next t => ({ h with state := some t }, .ran t.status)
    | .fault f => (h, .stuck f)
    | .refused r => (h, .refused r)

/-- `Run(limit)` from `h` returns and answers `after`, for a number `limit` or `NONE` (R109). Before the first `Load` it is
refused, without a limit too (R108). `Run(NONE)` need not return (R110), so this is a relation (log entry 11). -/
def HostCore.runAnswers (h : HostCore) (limit : Option Nat) (after : HostCore × Reply) : Prop :=
  match limit, h.state with
  | some n, _ => after = h.run n
  | none, none => after = (h, .refused .notLoaded)
  | none, some s => ∃ t, runsToEnd s t ∧ after = ({ h with state := some t }, .ran t.status)

/-- The number of a run state on the introspection port (R32). -/
def RunState.code : RunState → Nat
  | .fetch => 0
  | .execute => 1
  | .halted => 2
  | .faulted => 3

/-- The number of a fault kind (R34, R148). -/
def FaultKind.code : FaultKind → Nat
  | .none => 0
  | .invalidOpcode => 1
  | .addressOutOfRange => 2
  | .decodeDisabledOpcode => 3

/-- What the host may read between steps (R111), with the numbers of R31, R32 and R34. -/
structure Observation where
  regs      : List Byte
  flags     : BitVec 4
  mem       : List Byte
  pc        : Nat
  run       : Nat
  faultKind : Nat
  faultPc   : Nat
deriving DecidableEq, Repr

/-- The introspection of a state (R111): every register, the packed flags, every data memory byte, `pc`, the run state
and the fault record. -/
def State.observe (s : State) : Observation :=
  { regs := [s.reg .r0, s.reg .r1, s.reg .r2, s.reg .r3]
    flags := s.flags.pack
    mem := (List.range s.cfg.memSize).map s.mem.read
    pc := s.pc
    run := s.run.code
    faultKind := s.fault.kind.code
    faultPc := s.fault.pc }

end Sys2Proof.Machine
end

