-- ==== Sys2Proof/Safety.lean ====
section
/-! DEFINITION. The terms the statements use: the invariant of a loaded core; the frames "only this register", "no memory
byte", "no control state"; and the instructions a source denotes, said without the assembler's two passes. -/

namespace Sys2Proof.Machine

/-- What holds of every state of a loaded core between steps: a well-formed configuration; data memory in canonical form
inside `MEM_SIZE` (R42); an image of at most 256 bytes (R36); `pc` in 0..256 (R22); never EXECUTE (R33); a fault kind
exactly in FAULTED (R34), recorded at `pc` (R151); no fault pc otherwise; and A, E never both true (R142). -/
structure State.Inv (s : State) : Prop where
  cfgWf        : s.cfg.wf
  memWf        : s.mem.wf
  memBelow     : s.mem.below s.cfg.memSize
  imgLe        : s.img.length ≤ 256
  pcLe         : s.pc ≤ 256
  notExecute   : s.run ≠ .execute
  faultIff     : s.fault.kind ≠ .none ↔ s.run = .faulted
  faultPc      : s.run = .faulted → s.fault.pc = s.pc
  noFaultPc    : s.run ≠ .faulted → s.fault.pc = 0
  flagsExclude : ¬(s.flags.a = true ∧ s.flags.e = true)

/-- Every register but `rb` keeps its value. -/
def sameRegsBut (rb : Reg) (s t : State) : Prop := ∀ r, r ≠ rb → t.reg r = s.reg r

/-- Every register keeps its value. -/
def sameRegs (s t : State) : Prop := ∀ r, t.reg r = s.reg r

/-- Every byte of data memory reads as before. -/
def sameMem (s t : State) : Prop := ∀ addr, t.mem.read addr = s.mem.read addr

/-- The run state, the fault record, the image and the parameters are as before. -/
def sameControl (s t : State) : Prop := t.run = s.run ∧ t.fault = s.fault ∧ t.img = s.img ∧ t.cfg = s.cfg

/-- `t` is `s` after the fault `kind` (R151): FAULTED, the kind and the `pc` of `s` recorded, everything else as in `s`. -/
def faultedAs (kind : FaultKind) (s t : State) : Prop :=
  t.run = .faulted ∧ t.fault.kind = kind ∧ t.fault.pc = s.pc ∧
    t.regs = s.regs ∧ t.flags = s.flags ∧ t.mem = s.mem ∧ t.pc = s.pc ∧ t.img = s.img ∧ t.cfg = s.cfg

/-- What every ALU instruction does beside its result and C (R118, R120): A and E compare the old operands as unsigned
numbers, Z is that the new `rb` is 0, `pc` moves by 1, and nothing but `rb` and the flags changes. -/
def aluCommon (ra rb : Reg) (s t : State) : Prop :=
  t.flags.a = decide ((s.reg rb).toNat < (s.reg ra).toNat) ∧ t.flags.e = decide (s.reg ra = s.reg rb) ∧
    t.flags.z = decide ((t.reg rb).toNat = 0) ∧ t.pc = s.pc + 1 ∧ sameRegsBut rb s t ∧ sameMem s t ∧ sameControl s t

/-- The byte `base + 4 * ra + rb`, as the opcode map writes the two-register rows (R74, R95). -/
def opByte (base : Nat) (ra rb : Reg) : Byte := BitVec.ofNat 8 (base + 4 * ra.bits.toNat + rb.bits.toNat)

/-- The first bytes that match no opcode (R75). -/
def invalidByte (b : Byte) : Prop :=
  (0x24 ≤ b.toNat ∧ b.toNat ≤ 0x2F) ∨ (0x34 ≤ b.toNat ∧ b.toNat ≤ 0x3F) ∨
    (0x41 ≤ b.toNat ∧ b.toNat ≤ 0x4F) ∨ (0x61 ≤ b.toNat ∧ b.toNat ≤ 0x7F)

/-- The first bytes of the 2-byte instructions (R71). -/
def twoByteFirst (b : Byte) : Prop :=
  (0x20 ≤ b.toNat ∧ b.toNat ≤ 0x23) ∨ b.toNat = 0x40 ∨ (0x50 ≤ b.toNat ∧ b.toNat ≤ 0x5F)

/-- A step that finds first byte `b` as the last byte of the image takes `AddressOutOfRangeFault` (R103). -/
def faultsWithoutOperand (b : Byte) : Prop :=
  ∀ s : State, s.run = .fetch → s.img[s.pc]? = some b → s.img.length = s.pc + 1 →
    ∃ t, step s = .next t ∧ faultedAs .addressOutOfRange s t

/-- If `pc` lies at or beyond the image, the next step takes `AddressOutOfRangeFault` there (R100, R147). -/
def faultsBeyondImage (t : State) : Prop :=
  t.run = .fetch → t.img.length ≤ t.pc → ∃ u, step t = .next u ∧ faultedAs .addressOutOfRange t u

/-- The decoder reads instruction `i` at `pc` of `s`. -/
def decodesTo (s : State) (i : Instr) : Prop :=
  ∃ rest, decode s.cfg.aluCodes (s.img.drop s.pc) = .instr i rest

/-- The name a `MARK` binds. -/
def Item.markName? : Item → Option (List Char)
  | .mark name => some name
  | .instr _ => none
  | .jmpTo _ => none
  | .jifTo _ _ => none

/-- Among the items of a program a `MARK` of `name` stands at offset `off`: the sizes of the items before it add up to
`off` (R87, R88). -/
def labelAt (items : List Item) (name : List Char) (off : Nat) : Prop :=
  ∃ before after, items = before ++ .mark name :: after ∧ off = (before.map Item.size).sum

/-- In the program `items`, an item stands for an instruction: itself, or the `JMP` or `JIF` whose second byte is the
offset of its label, which is below 256 (R89, R95). A `MARK` stands for none. -/
def Item.standsFor (items : List Item) : Item → Instr → Prop
  | .instr i, j => j = i
  | .jmpTo l, j => ∃ off, labelAt items l off ∧ off < 256 ∧ j = .jmp (BitVec.ofNat 8 off)
  | .jifTo m l, j => ∃ off, labelAt items l off ∧ off < 256 ∧ j = .jif m (BitVec.ofNat 8 off)
  | .mark _, _ => False

/-- The instructions of the program `items`: what the items that are no `MARK` stand for, one each and in order (R89). -/
def instrsOf (items : List Item) (is : List Instr) : Prop :=
  let coded := items.filter fun it => it.markName?.isNone
  coded.length = is.length ∧ ∀ p ∈ coded.zip is, p.1.standsFor items p.2

/-- The lines of a source denote the instructions `is`: every line parses, blank and comment lines to nothing, no name has
two `MARK`s (R86), and `is` are the instructions of the lines' items (R88, R89). -/
def sourceDenotes (k : AluCodes) (lines : List (List Char)) (is : List Instr) : Prop :=
  ∃ parsed : List (Option Item), lines.map (parseLine k) = parsed.map Parsed.ok ∧
    ((parsed.filterMap id).filterMap Item.markName?).Nodup ∧ instrsOf (parsed.filterMap id) is

end Sys2Proof.Machine
end

