-- ==== Sys2Proof/Certificates/Slice0/Obligations.lean ====
section
/-! DEFINITION. The statements for the provers, from the numbered rules of spec/. Statements of an instruction's result
conclude that `exec` answers a next state and say all it holds, frame included. A rule of spec/ is written for the
default parameters (00_scope.md R8); where a parameter changes it, the statement says both. -/

open Sys2Proof Sys2Proof.Machine

/-! ## Encoding -/

/-- Bytes written out from the rows of R60, R70: what the decoder reads from them. -/
def Obligations.SpecBytesDecode : Prop :=
  decode AluCodes.default [0b10000001#8] = .instr (.add .r0 .r1) [] ∧
  decode AluCodes.default [0b10010110#8] = .instr (.shr .r1 .r2) [] ∧
  decode AluCodes.default [0b10101010#8] = .instr (.shl .r2 .r2) [] ∧
  decode AluCodes.default [0b10110101#8] = .instr (.not .r1 .r1) [] ∧
  decode AluCodes.default [0b11001110#8] = .instr (.and .r3 .r2) [] ∧
  decode AluCodes.default [0b11011010#8] = .instr (.or .r2 .r2) [] ∧
  decode AluCodes.default [0b11100001#8] = .instr (.xor .r0 .r1) [] ∧
  decode AluCodes.default [0b11110001#8] = .instr (.cmp .r0 .r1) [] ∧
  decode AluCodes.default [0b00000001#8] = .instr (.ld .r0 .r1) [] ∧
  decode AluCodes.default [0b00011011#8] = .instr (.st .r2 .r3) [] ∧
  decode AluCodes.default [0b00100011#8, 0x2A#8] = .instr (.data .r3 42#8) [] ∧
  decode AluCodes.default [0b00110010#8] = .instr (.jmpr .r2) [] ∧
  decode AluCodes.default [0b01000000#8, 0x05#8] = .instr (.jmp 5#8) [] ∧
  decode AluCodes.default [0b01010010#8, 0x09#8] = .instr (.jif 0b0010#4 9#8) [] ∧
  decode AluCodes.default [0b01100000#8] = .instr .clf [] ∧
  decode AluCodes.default [0b11001111#8] = .instr .end_ []

/-- The opcode map (R74) over all 256 first bytes at the default `ALU_CODES`: which kind of instruction each range
starts, with the register fields of R68, and which bytes start none. -/
def Obligations.OpcodeMapByRange : Prop :=
  ∀ b : Byte,
    let n := b.toNat
    let ra := Reg.ofBits (BitVec.ofNat 2 (n / 4 % 4))
    let rb := Reg.ofBits (BitVec.ofNat 2 (n % 4))
    (n ≤ 0x0F → decodeOpcode AluCodes.default b = .complete (.ld ra rb)) ∧
    (0x10 ≤ n ∧ n ≤ 0x1F → decodeOpcode AluCodes.default b = .complete (.st ra rb)) ∧
    (0x20 ≤ n ∧ n ≤ 0x23 → decodeOpcode AluCodes.default b = .pending (.data rb)) ∧
    (0x30 ≤ n ∧ n ≤ 0x33 → decodeOpcode AluCodes.default b = .complete (.jmpr rb)) ∧
    (n = 0x40 → decodeOpcode AluCodes.default b = .pending .jmp) ∧
    (0x50 ≤ n ∧ n ≤ 0x5F → decodeOpcode AluCodes.default b = .pending (.jif (BitVec.ofNat 4 (n % 16)))) ∧
    (n = 0x60 → decodeOpcode AluCodes.default b = .complete .clf) ∧
    (0x80 ≤ n ∧ n ≤ 0x8F → decodeOpcode AluCodes.default b = .complete (.add ra rb)) ∧
    (0x90 ≤ n ∧ n ≤ 0x9F → decodeOpcode AluCodes.default b = .complete (.shr ra rb)) ∧
    (0xA0 ≤ n ∧ n ≤ 0xAF → decodeOpcode AluCodes.default b = .complete (.shl ra rb)) ∧
    (0xB0 ≤ n ∧ n ≤ 0xBF → decodeOpcode AluCodes.default b = .complete (.not ra rb)) ∧
    (0xC0 ≤ n ∧ n ≤ 0xCE → decodeOpcode AluCodes.default b = .complete (.and ra rb)) ∧
    (n = 0xCF → decodeOpcode AluCodes.default b = .complete .end_) ∧
    (0xD0 ≤ n ∧ n ≤ 0xDF → decodeOpcode AluCodes.default b = .complete (.or ra rb)) ∧
    (0xE0 ≤ n ∧ n ≤ 0xEF → decodeOpcode AluCodes.default b = .complete (.xor ra rb)) ∧
    (0xF0 ≤ n → decodeOpcode AluCodes.default b = .complete (.cmp ra rb)) ∧
    (invalidByte b → decodeOpcode AluCodes.default b = .invalid)

/-- R75, R149: the first bytes that match no opcode are the listed ones, 70 of them, under every `ALU_CODES`; a step that
fetches one takes `InvalidOpcodeFault`, whether or not a byte follows it in the image. -/
def Obligations.IllegalFirstBytesFault : Prop :=
  (∀ (k : AluCodes) (b : Byte), decodeOpcode k b = .invalid ↔ invalidByte b) ∧
  ((List.range 256).filter (fun n => decodeOpcode AluCodes.default (BitVec.ofNat 8 n) = .invalid)).length = 70 ∧
  ∀ (s : State) (b : Byte), s.run = .fetch → s.img[s.pc]? = some b → invalidByte b →
    ∃ t, step s = .next t ∧ faultedAs .invalidOpcode s t

/-- R71: under every `ALU_CODES`, the first byte alone fixes the length: 2 exactly for the first bytes of `DATA`, `JMP`
and `JIF`, 1 for every other byte that starts an instruction; and the decoder takes that many bytes. -/
def Obligations.FirstByteFixesLength : Prop :=
  ∀ (k : AluCodes) (b : Byte),
    ((decodeOpcode k b).length = 2 ↔ twoByteFirst b) ∧
    (¬twoByteFirst b ∧ decodeOpcode k b ≠ .invalid → (decodeOpcode k b).length = 1) ∧
    ∀ (bytes rest : List Byte) (i : Instr), decode k (b :: bytes) = .instr i rest →
      i.size = (decodeOpcode k b).length ∧ rest = (b :: bytes).drop i.size

/-- 0xCF is `END` under every `ALU_CODES`, although it also fits the ALU class; so the ALU operation of code 100 on R3, R3
is decoded from no bytes. This is the spec's own decision D2 (90_conflicts.md C1). -/
def Obligations.EndByteIsEnd : Prop :=
  ∀ k : AluCodes, k.wf →
    (∀ bytes, decode k (0xCF#8 :: bytes) = .instr .end_ bytes) ∧
    (∀ bytes rest i, decode k bytes = .instr i rest → i.asAlu ≠ some (k.c100, .r3, .r3)) ∧
    aluByte 4#3 .r3 .r3 = 0xCF#8

/-- Decoding what is encoded gives it back, with every operand at every value, under every bijective `ALU_CODES`. -/
def Obligations.DecodeOfEncode : Prop :=
  ∀ (k : AluCodes) (i : Instr) (rest : List Byte), k.wf → i.wf k → decode k (encode k i ++ rest) = .instr i rest

/-- Encoding what is decoded gives the bytes back: each byte sequence has one meaning and each instruction one encoding. -/
def Obligations.EncodeOfDecode : Prop :=
  ∀ (k : AluCodes) (bytes rest : List Byte) (i : Instr), k.wf → decode k bytes = .instr i rest →
    i.wf k ∧ encode k i ++ rest = bytes

/-- Disassembling the image of a label-free program recovers its instructions, whatever they are, jump targets as numeric
offsets; and 0xCF at an instruction's start always disassembles as `END` (30_encoding.md section 3). The lists may hold
`CMP`, which no source assembles to: that its bytes disassemble as `CMP` is the model's choice (log entry 19). -/
def Obligations.DisassemblyInvertsEncoding : Prop :=
  (∀ (k : AluCodes) (is : List Instr), k.wf → (∀ i ∈ is, i.wf k) →
    disassemble k (is.flatMap (encode k)) = some is) ∧
  ∀ (k : AluCodes) (bytes : List Byte) (is : List Instr), disassemble k bytes = some is →
    disassemble k (0xCF#8 :: bytes) = some (.end_ :: is)

/-! ## The ALU instructions -/

/-- R121 `ADD`. -/
def Obligations.AddResult : Prop :=
  ∀ (ra rb : Reg) (s : State),
    decode AluCodes.default [opByte 0x80 ra rb] = .instr (.add ra rb) [] ∧
    ∃ t, exec (.add ra rb) s = .next t ∧
      (t.reg rb).toNat = ((s.reg ra).toNat + (s.reg rb).toNat) % 256 ∧
      t.flags.c = decide (256 ≤ (s.reg ra).toNat + (s.reg rb).toNat) ∧ aluCommon ra rb s t

/-- `SHR` (41_alu.md section 2): bit 7 of the result is 0, the spec's own decision D8; under `SHIFT_FILL` = `OLD_C` it is the old C. -/
def Obligations.ShrResult : Prop :=
  ∀ (ra rb : Reg) (s : State),
    decode AluCodes.default [opByte 0x90 ra rb] = .instr (.shr ra rb) [] ∧
    ∃ t, exec (.shr ra rb) s = .next t ∧
      (s.cfg.shiftFill = .zero → (t.reg rb).toNat = (s.reg rb).toNat / 2) ∧
      (s.cfg.shiftFill = .oldC → (t.reg rb).toNat = (s.reg rb).toNat / 2 + (if s.flags.c then 128 else 0)) ∧
      t.flags.c = (s.reg rb).getLsbD 0 ∧ aluCommon ra rb s t

/-- `SHL` (41_alu.md section 2): bit 0 of the result is 0, the spec's own decision D8; under `SHIFT_FILL` = `OLD_C` it is the old C. -/
def Obligations.ShlResult : Prop :=
  ∀ (ra rb : Reg) (s : State),
    decode AluCodes.default [opByte 0xA0 ra rb] = .instr (.shl ra rb) [] ∧
    ∃ t, exec (.shl ra rb) s = .next t ∧
      (s.cfg.shiftFill = .zero → (t.reg rb).toNat = (s.reg rb).toNat * 2 % 256) ∧
      (s.cfg.shiftFill = .oldC →
        (t.reg rb).toNat = (s.reg rb).toNat * 2 % 256 + (if s.flags.c then 1 else 0)) ∧
      t.flags.c = (s.reg rb).getLsbD 7 ∧ aluCommon ra rb s t

/-- `NOT` (41_alu.md section 2): C is false, the spec's own decision D9; under `NOT_CARRY` = `UNCHANGED` it keeps its value. -/
def Obligations.NotResult : Prop :=
  ∀ (ra rb : Reg) (s : State),
    decode AluCodes.default [opByte 0xB0 ra rb] = .instr (.not ra rb) [] ∧
    ∃ t, exec (.not ra rb) s = .next t ∧
      (t.reg rb).toNat = 255 - (s.reg rb).toNat ∧
      (s.cfg.notCarry = .clear → t.flags.c = false) ∧
      (s.cfg.notCarry = .unchanged → t.flags.c = s.flags.c) ∧ aluCommon ra rb s t

/-- R125 `AND`; its byte with `RA` = `RB` = R3 is `END`. -/
def Obligations.AndResult : Prop :=
  ∀ (ra rb : Reg) (s : State),
    (¬(ra = .r3 ∧ rb = .r3) → decode AluCodes.default [opByte 0xC0 ra rb] = .instr (.and ra rb) []) ∧
    decode AluCodes.default [opByte 0xC0 .r3 .r3] = .instr .end_ [] ∧
    ∃ t, exec (.and ra rb) s = .next t ∧
      (∀ j, j < 8 → (t.reg rb).getLsbD j = ((s.reg ra).getLsbD j && (s.reg rb).getLsbD j)) ∧
      t.flags.c = false ∧ aluCommon ra rb s t

/-- R126 `OR`. -/
def Obligations.OrResult : Prop :=
  ∀ (ra rb : Reg) (s : State),
    decode AluCodes.default [opByte 0xD0 ra rb] = .instr (.or ra rb) [] ∧
    ∃ t, exec (.or ra rb) s = .next t ∧
      (∀ j, j < 8 → (t.reg rb).getLsbD j = ((s.reg ra).getLsbD j || (s.reg rb).getLsbD j)) ∧
      t.flags.c = false ∧ aluCommon ra rb s t

/-- R127 `XOR`, with its corner case that Z equals E. -/
def Obligations.XorResult : Prop :=
  ∀ (ra rb : Reg) (s : State),
    decode AluCodes.default [opByte 0xE0 ra rb] = .instr (.xor ra rb) [] ∧
    ∃ t, exec (.xor ra rb) s = .next t ∧
      (∀ j, j < 8 → (t.reg rb).getLsbD j = ((s.reg ra).getLsbD j != (s.reg rb).getLsbD j)) ∧
      t.flags.c = false ∧ t.flags.z = t.flags.e ∧ aluCommon ra rb s t

/-- R133, R152 `CMP`: not executable. Its meaning takes `DecodeDisabledOpcodeFault`, and so does a step that fetches any
byte 0xF0-0xFF, whatever follows it in the image; nothing else changes. -/
def Obligations.CmpTakesDisabledFault : Prop :=
  (∀ (ra rb : Reg) (s : State), ∃ t, exec (.cmp ra rb) s = .next t ∧ faultedAs .decodeDisabledOpcode s t) ∧
  (∀ ra rb : Reg, decode AluCodes.default [opByte 0xF0 ra rb] = .instr (.cmp ra rb) []) ∧
  ∀ (s : State) (b : Byte), s.run = .fetch → s.img[s.pc]? = some b → 0xF0 ≤ b.toNat →
    ∃ t, step s = .next t ∧ faultedAs .decodeDisabledOpcode s t

/-- With one register as both operands E is true and A is false for every operation, the other registers keep
their values, and `ADD Rn Rn` and `SHL Rn Rn` give one result and one C. -/
def Obligations.SameRegisterOperands : Prop :=
  (∀ (i : Instr) (o : AluOp) (r : Reg) (s t : State), i.asAlu = some (o, r, r) → exec i s = .next t →
    t.flags.e = true ∧ t.flags.a = false ∧ sameRegsBut r s t) ∧
  ∀ (r : Reg) (s : State), s.cfg.shiftFill = .zero →
    ∃ t u, exec (.add r r) s = .next t ∧ exec (.shl r r) s = .next u ∧ t.reg r = u.reg r ∧ t.flags.c = u.flags.c

/-- At the default `SHIFT_FILL` and `NOT_CARRY`, no ALU operation reads the old flags: states that agree on the
registers and parameters give equal registers and equal flags. -/
def Obligations.AluIgnoresOldFlags : Prop :=
  ∀ (i : Instr) (o : AluOp) (ra rb : Reg) (s s' : State), i.asAlu = some (o, ra, rb) →
    s.cfg.shiftFill = .zero → s.cfg.notCarry = .clear → s'.cfg = s.cfg → s'.regs = s.regs →
    ∃ t t', exec i s = .next t ∧ exec i s' = .next t' ∧ t'.regs = t.regs ∧ t'.flags = t.flags

/-- The block (its interface is the spec's own decision D30) passes the exhaustive testbench whatever C was, and asserts `dis` for `op` = 111 alone,
where it drives nothing else. -/
def Obligations.AluBlockPassesTestbench : Prop :=
  (∀ oldC, testbenchPasses (aluBlock Config.default oldC)) ∧
  ∀ (cfg : Config) (oldC : Bool) (op : BitVec 3) (a b : Byte),
    ((aluBlock cfg oldC op a b).dis = true ↔ op = 7#3) ∧ ((aluBlock cfg oldC op a b).out = none ↔ op = 7#3)

/-! ## Load, store, immediate -/

/-- R136 `LD`: in range the byte is loaded; out of range `AddressOutOfRangeFault` is taken and nothing is written. -/
def Obligations.LdResult : Prop :=
  ∀ (ra rb : Reg) (s : State),
    decode AluCodes.default [opByte 0x00 ra rb] = .instr (.ld ra rb) [] ∧
    ((s.reg ra).toNat < s.cfg.memSize → ∃ t, exec (.ld ra rb) s = .next t ∧
      t.reg rb = s.mem.read (s.reg ra).toNat ∧ t.pc = s.pc + 1 ∧ t.flags = s.flags ∧
      sameRegsBut rb s t ∧ sameMem s t ∧ sameControl s t) ∧
    (s.cfg.memSize ≤ (s.reg ra).toNat → ∃ t, exec (.ld ra rb) s = .next t ∧ faultedAs .addressOutOfRange s t)

/-- R137 `ST`: the address is the value of `RB` and the byte the value of `RA`, or the other way round under `ST_ROLES` =
`SWAPPED`, which is no rule's but the spec's own decision D3 (log entry 2). In range that one byte is stored; out of range `AddressOutOfRangeFault` is taken and nothing is written. -/
def Obligations.StResult : Prop :=
  ∀ (ra rb : Reg) (s : State), s.mem.wf →
    decode AluCodes.default [opByte 0x10 ra rb] = .instr (.st ra rb) [] ∧
    (s.cfg.stRoles = .table → s.stAddr ra rb = s.reg rb ∧ s.stValue ra rb = s.reg ra) ∧
    (s.cfg.stRoles = .swapped → s.stAddr ra rb = s.reg ra ∧ s.stValue ra rb = s.reg rb) ∧
    ((s.stAddr ra rb).toNat < s.cfg.memSize → ∃ t, exec (.st ra rb) s = .next t ∧
      t.mem.read (s.stAddr ra rb).toNat = s.stValue ra rb ∧
      (∀ a, a ≠ (s.stAddr ra rb).toNat → t.mem.read a = s.mem.read a) ∧
      t.pc = s.pc + 1 ∧ t.flags = s.flags ∧ sameRegs s t ∧ sameControl s t) ∧
    (s.cfg.memSize ≤ (s.stAddr ra rb).toNat →
      ∃ t, exec (.st ra rb) s = .next t ∧ faultedAs .addressOutOfRange s t)

/-- R138 `DATA`. -/
def Obligations.DataResult : Prop :=
  ∀ (rb : Reg) (x : Byte) (s : State),
    decode AluCodes.default [opByte 0x20 .r0 rb, x] = .instr (.data rb x) [] ∧
    faultsWithoutOperand (opByte 0x20 .r0 rb) ∧
    ∃ t, exec (.data rb x) s = .next t ∧ t.reg rb = x ∧ t.pc = s.pc + 2 ∧ t.flags = s.flags ∧
      sameRegsBut rb s t ∧ sameMem s t ∧ sameControl s t

/-- A byte stored by `ST` and loaded from the same address by the next `LD` is the same byte (R45, R52), whatever register
it is loaded into. -/
def Obligations.LoadAfterStoreGivesTheByte : Prop :=
  ∀ (ra rb rc : Reg) (s t : State), s.mem.wf → s.cfg.stRoles = .table → (s.reg rb).toNat < s.cfg.memSize →
    exec (.st ra rb) s = .next t → ∃ u, exec (.ld rb rc) t = .next u ∧ u.reg rc = s.reg ra

/-- Two canonical memories that read alike at every address are the same data. -/
def Obligations.MemoryIsItsReadings : Prop :=
  ∀ m m' : Memory, m.wf → m'.wf → (∀ a, m.read a = m'.read a) → m = m'

/-! ## Control flow -/

/-- R140 `JMPR`. -/
def Obligations.JmprResult : Prop :=
  ∀ (rb : Reg) (s : State),
    decode AluCodes.default [opByte 0x30 .r0 rb] = .instr (.jmpr rb) [] ∧
    ∃ t, exec (.jmpr rb) s = .next t ∧ t.pc = (s.reg rb).toNat ∧ t.flags = s.flags ∧
      sameRegs s t ∧ sameMem s t ∧ sameControl s t ∧ faultsBeyondImage t

/-- R141 `JMP`. -/
def Obligations.JmpResult : Prop :=
  ∀ (x : Byte) (s : State),
    decode AluCodes.default [0x40#8, x] = .instr (.jmp x) [] ∧ faultsWithoutOperand 0x40#8 ∧
    ∃ t, exec (.jmp x) s = .next t ∧ t.pc = x.toNat ∧ t.flags = s.flags ∧
      sameRegs s t ∧ sameMem s t ∧ sameControl s t ∧ faultsBeyondImage t

/-- `JIF` (43_control.md): taken exactly when every selected flag is true; the empty mask is taken, the spec's own decision D10, or
not taken under `EMPTY_MASK_TAKEN` = false. A mask with A and E is not taken where A and E are not both true. -/
def Obligations.JifResult : Prop :=
  ∀ (m : BitVec 4) (x : Byte) (s : State),
    decode AluCodes.default [BitVec.ofNat 8 (0x50 + m.toNat), x] = .instr (.jif m x) [] ∧
    faultsWithoutOperand (BitVec.ofNat 8 (0x50 + m.toNat)) ∧
    ∃ t, exec (.jif m x) s = .next t ∧
      (s.cfg.emptyMaskTaken = true ∨ m ≠ 0#4 →
        t.pc = if (m.getLsbD 3 = false ∨ s.flags.c = true) ∧ (m.getLsbD 2 = false ∨ s.flags.a = true) ∧
            (m.getLsbD 1 = false ∨ s.flags.e = true) ∧ (m.getLsbD 0 = false ∨ s.flags.z = true)
          then x.toNat else s.pc + 2) ∧
      (s.cfg.emptyMaskTaken = false → m = 0#4 → t.pc = s.pc + 2) ∧
      (¬(s.flags.a = true ∧ s.flags.e = true) → m.getLsbD 2 = true → m.getLsbD 1 = true → t.pc = s.pc + 2) ∧
      t.flags = s.flags ∧ sameRegs s t ∧ sameMem s t ∧ sameControl s t ∧ faultsBeyondImage t

/-- R144 `CLF`; after it only the `JIF` of mask 0000 is taken. -/
def Obligations.ClfResult : Prop :=
  ∀ s : State,
    decode AluCodes.default [0x60#8] = .instr .clf [] ∧
    ∃ t, exec .clf s = .next t ∧
      t.flags.c = false ∧ t.flags.a = false ∧ t.flags.e = false ∧ t.flags.z = false ∧ t.pc = s.pc + 1 ∧
      sameRegs s t ∧ sameMem s t ∧ sameControl s t ∧
      ∀ (m : BitVec 4) (x : Byte), ∃ u, exec (.jif m x) t = .next u ∧ (m ≠ 0#4 → u.pc = t.pc + 2) ∧
        (m = 0#4 → s.cfg.emptyMaskTaken = true → u.pc = x.toNat)

/-- `END` (43_control.md): `pc` moves past the byte, the run state is HALTED; and a step reaches HALTED only by `END`. That
a further step changes nothing is the spec's own decision D14 (log entry 2). -/
def Obligations.EndResult : Prop :=
  decode AluCodes.default [0xCF#8] = .instr .end_ [] ∧
  (∀ s : State, ∃ t, exec .end_ s = .next t ∧ t.pc = s.pc + 1 ∧ t.run = .halted ∧ t.fault = s.fault ∧
    t.flags = s.flags ∧ sameRegs s t ∧ sameMem s t ∧ t.img = s.img ∧ t.cfg = s.cfg ∧ step t = .next t) ∧
  ∀ s t : State, s.run = .fetch → step s = .next t → t.run = .halted → decodesTo s .end_

/-- The packing (the spec's own decision D17) puts C in bit 3 and Z in bit 0, the order of the `JIF` mask: the mask equal to the packed flags is
always taken, and no mask with a further bit is. -/
def Obligations.FlagPackingIsMaskOrder : Prop :=
  ∀ f : Flags,
    f.pack.toNat = 8 * f.c.toNat + 4 * f.a.toNat + 2 * f.e.toNat + f.z.toNat ∧
    ∀ m : BitVec 4, condHolds Config.default m f = true ↔ m &&& f.pack = m

/-- The flags are read by `JIF` alone (R29), at the default `SHIFT_FILL` and `NOT_CARRY`: other flags before any other
instruction change nothing after it but the flags. -/
def Obligations.OnlyJifReadsFlags : Prop :=
  ∀ (i : Instr) (f : Flags) (s : State), (∀ m x, i ≠ .jif m x) →
    s.cfg.shiftFill = .zero → s.cfg.notCarry = .clear →
    ∃ t t', exec i s = .next t ∧ exec i (s.setFlags f) = .next t' ∧ t'.setFlags t.flags = t

/-- A `JMP` to its own offset loops for ever (R110, R141): any number of steps leaves the state as it is, so an unlimited
`Run` never returns. -/
def Obligations.SelfJumpNeverEnds : Prop :=
  ∀ (x : Byte) (s : State), s.run = .fetch → decodesTo s (.jmp x) → x.toNat = s.pc →
    (∀ n, runFor n s = .next s) ∧ ¬∃ t, runsToEnd s t

/-! ## The step -/

/-- A step from FETCH runs the decoded instruction (R99): the bytes at `pc` decode to `i`, and the step is `exec i`. The
passage through EXECUTE and back (R97, R105) leaves no trace. -/
def Obligations.StepRunsDecodedInstruction : Prop :=
  ∀ (s : State) (i : Instr), s.run = .fetch → decodesTo s i → step s = exec i s

/-- A step in HALTED or FAULTED changes nothing (the spec's own decision D14). -/
def Obligations.StepInTerminalStateChangesNothing : Prop :=
  ∀ s : State, s.run = .halted ∨ s.run = .faulted → step s = .next s

/-- R100: a fetch at or beyond the end of the image takes `AddressOutOfRangeFault`, the empty image too. -/
def Obligations.FetchBeyondImageFaults : Prop := ∀ s : State, faultsBeyondImage s

/-- A 2-byte instruction whose operand byte is missing takes `AddressOutOfRangeFault` at its own first byte (the spec's
own decisions D11, D12). -/
def Obligations.MissingOperandByteFaults : Prop := ∀ b : Byte, twoByteFirst b → faultsWithoutOperand b

/-- Exactly when a step from FETCH ends in FAULTED (60_exceptions.md sections 1, 2; decisions D5, D12): no first byte, an invalid or disabled first byte, no
operand byte, or a data address of `LD` or `ST` out of range. -/
def Obligations.StepFaultsExactlyWhen : Prop :=
  ∀ s : State, s.run = .fetch →
    ((∃ t, step s = .next t ∧ t.run = .faulted) ↔
      s.img.length ≤ s.pc ∨
      ∃ b, s.img[s.pc]? = some b ∧
        (invalidByte b ∨ 0xF0 ≤ b.toNat ∨ (twoByteFirst b ∧ s.img.length ≤ s.pc + 1) ∨
          (b.toNat ≤ 0x0F ∧ s.cfg.memSize ≤ (s.reg (fieldAA b)).toNat) ∨
          (0x10 ≤ b.toNat ∧ b.toNat ≤ 0x1F ∧ s.cfg.memSize ≤ (s.stAddr (fieldAA b) (fieldBB b)).toNat)))

/-- Whenever a step from FETCH ends in FAULTED, a kind is recorded with the `pc` the step began at, and nothing else has
changed: faults are precise, the spec's own decision D11. -/
def Obligations.FaultsArePrecise : Prop :=
  ∀ s t : State, s.run = .fetch → step s = .next t → t.run = .faulted →
    ∃ k, k ≠ .none ∧ faultedAs k s t

/-! ## What no run can break -/

/-- From every state of the invariant a step answers a next state of the invariant: no step of a loaded core stops
outside the spec's four run states, memory stays canonical and inside `MEM_SIZE`, `pc` stays in 0..256, the fault record
is set exactly in FAULTED, A and E are never both true. -/
def Obligations.StepTotalAndKeepsInvariant : Prop :=
  ∀ s : State, s.Inv → ∃ t, step s = .next t ∧ t.Inv

/-- The invariant holds right after reset. -/
def Obligations.ResetMeetsInvariant : Prop := State.reset.Inv

/-- R21, R26, R30: whatever the host loads, after reset every register is 0, `pc` is 0 and every flag is false; so a read
of a register nothing has written gives 0. The machine right after reset is such a state. -/
def Obligations.ResetRegistersPcFlags : Prop :=
  (∀ (cfg : Config) (image memInit : List Byte) (s : State), State.load cfg image memInit = .ok s →
    (∀ r, s.reg r = 0#8) ∧ s.pc = 0 ∧
      s.flags.c = false ∧ s.flags.a = false ∧ s.flags.e = false ∧ s.flags.z = false) ∧
  ∃ image memInit, State.load Config.default image memInit = .ok State.reset

/-- The reset values of 70_reset_and_hazards.md section 1 (those of the fault record and of the pre-loaded memory are the
spec's own decisions D11, D16), for every image and pre-loaded memory a `Load` accepts; and the machine right after reset has
them with the empty image and nothing pre-loaded. -/
def Obligations.LoadGivesResetValues : Prop :=
  (∀ (cfg : Config) (image memInit : List Byte), image.length ≤ 256 → memInit.length ≤ cfg.memSize →
    ∃ s, State.load cfg image memInit = .ok s ∧ (∀ r, s.reg r = 0#8) ∧
      s.flags.c = false ∧ s.flags.a = false ∧ s.flags.e = false ∧ s.flags.z = false ∧
      s.pc = 0 ∧ s.run = .fetch ∧ s.fault.kind = .none ∧ s.fault.pc = 0 ∧
      (∀ a, s.mem.read a = memInit.getD a 0#8) ∧ s.img = image ∧ s.cfg = cfg) ∧
  State.load Config.default [] [] = .ok State.reset

/-- Every state a `Load` enters on a well-formed configuration meets the invariant (R107). -/
def Obligations.LoadMeetsInvariant : Prop :=
  ∀ (cfg : Config) (image memInit : List Byte) (s : State), cfg.wf → State.load cfg image memInit = .ok s → s.Inv

/-- An image or `mem_init` too long is refused, and then, as before any load, `Step` and `Run`,
with a limit or without, are refused and leave the core as it is (decisions D6, D16, D28). That a refused load also drops what was loaded before
is the model's reading of "nothing is loaded" (log entry 4). -/
def Obligations.RejectedLoadLeavesNothingToRun : Prop :=
  ∀ (h : HostCore) (image memInit : List Byte) (n : Nat),
    (256 < image.length ∨ h.cfg.memSize < memInit.length) →
    (∃ r, (h.load image memInit).2 = .refused r) ∧ (h.load image memInit).1 = HostCore.unloaded h.cfg ∧
    (HostCore.unloaded h.cfg).step = (HostCore.unloaded h.cfg, .refused .notLoaded) ∧
    (HostCore.unloaded h.cfg).run n = (HostCore.unloaded h.cfg, .refused .notLoaded) ∧
    ∀ (limit : Option Nat) (after : HostCore × Reply),
      (HostCore.unloaded h.cfg).runAnswers limit after ↔ after = (HostCore.unloaded h.cfg, .refused .notLoaded)

/-- R28: an ALU instruction overwrites all four flags with its own, `CLF` sets all four to false, and a step changes a
flag only by one of these. -/
def Obligations.FlagWriters : Prop :=
  (∀ s t : State, step s = .next t → t.flags ≠ s.flags →
    ∃ i, s.run = .fetch ∧ decodesTo s i ∧ (i.asAlu ≠ none ∨ i = .clf)) ∧
  ∀ (s t : State) (i : Instr), s.run = .fetch → decodesTo s i → step s = .next t →
    (i = .clf → t.flags = { c := false, a := false, e := false, z := false }) ∧
    ∀ o ra rb, i.asAlu = some (o, ra, rb) → t.flags = aluFlags s.cfg s.flags.c o (s.reg ra) (s.reg rb)

/-- R19: a step changes a register only by an ALU instruction, `LD` or `DATA`, and only the one of bits 1:0. -/
def Obligations.RegisterWriters : Prop :=
  ∀ (s t : State) (r : Reg), step s = .next t → t.reg r ≠ s.reg r →
    s.run = .fetch ∧ ∃ i, decodesTo s i ∧
      ((∃ o ra, i.asAlu = some (o, ra, r)) ∨ (∃ ra, i = .ld ra r) ∨ ∃ x, i = .data r x) ∧
      ∃ b, s.img[s.pc]? = some b ∧ fieldBB b = r

/-- R41: data memory is reached only by `LD`, which reads one byte of it, and `ST`, which writes one. A step changes a byte
only by `ST`, and only the byte at its address, in range; a step of any other instruction than `LD` and `ST` does the same
over any other contents, which it keeps. -/
def Obligations.DataMemoryReachedOnlyByLdAndSt : Prop :=
  (∀ (s t : State) (a : Nat), s.mem.wf → step s = .next t → t.mem.read a ≠ s.mem.read a →
    s.run = .fetch ∧ ∃ ra rb, decodesTo s (.st ra rb) ∧ a = (s.stAddr ra rb).toNat ∧ a < s.cfg.memSize) ∧
  (∀ (s t : State) (i : Instr) (m : Memory), s.run = .fetch → decodesTo s i →
    (∀ ra rb, i ≠ .ld ra rb) → (∀ ra rb, i ≠ .st ra rb) → step s = .next t →
    step { s with mem := m } = .next { t with mem := m }) ∧
  ∀ (s : State) (ra rb : Reg) (m : Memory), m.read (s.reg ra).toNat = s.mem.read (s.reg ra).toNat →
    ∃ t, exec (.ld ra rb) s = .next t ∧ exec (.ld ra rb) { s with mem := m } = .next { t with mem := m }

/-- R115: no step changes the image or its length; nor the parameters. -/
def Obligations.StepKeepsImage : Prop :=
  ∀ s t : State, step s = .next t → t.img = s.img ∧ t.imgLen = s.imgLen ∧ t.cfg = s.cfg

/-- The fault record changes only in the step that enters FAULTED (R34, R158). -/
def Obligations.FaultRecordWriters : Prop :=
  ∀ s t : State, step s = .next t → t.fault ≠ s.fault → s.run = .fetch ∧ t.run = .faulted

/-- R24: where a step from FETCH leaves `pc`: the table, by instruction; unchanged by any faulting instruction. -/
def Obligations.PcAfterStep : Prop :=
  ∀ (s t : State) (i : Instr), s.run = .fetch → decodesTo s i → step s = .next t →
    (t.run = .faulted → t.pc = s.pc) ∧
    (t.run ≠ .faulted → t.pc = match i with
      | .jmpr rb => (s.reg rb).toNat
      | .jmp x => x.toNat
      | .jif m x => if condHolds s.cfg m s.flags then x.toNat else s.pc + 2
      | .data _ _ => s.pc + 2
      | _ => s.pc + 1)

/-! ## The host interface -/

/-- The loop of R109 (its counting is the spec's own decision D15): `Run(0)` executes nothing; from FETCH a run of one step
is one step, whether it completes, halts or faults; a bounded run of `m + n` steps is a run of `m` and then, from the state
it left, a run of `n`. -/
def Obligations.RunContinuesWhereItPaused : Prop :=
  (∀ s : State, runFor 0 s = .next s) ∧
  (∀ s : State, s.run = .fetch → runFor 1 s = step s) ∧
  ∀ (m n : Nat) (s t : State), runFor m s = .next t → runFor (m + n) s = runFor n t

/-- A loaded core under any step limit: `Run(number)` returns, in a state of the invariant, and its status is `Halted` exactly in
HALTED, `Faulted` with the fault record exactly in FAULTED, `StepLimitReached` exactly in FETCH (R109, R112). -/
def Obligations.RunOfLoadedCore : Prop :=
  ∀ (cfg : Config) (image memInit : List Byte) (n : Nat), cfg.wf → image.length ≤ 256 →
    memInit.length ≤ cfg.memSize →
    ∃ t, (((HostCore.unloaded cfg).load image memInit).1.run n) =
        ({ cfg := cfg, state := some t }, .ran t.status) ∧ t.Inv ∧ t.img = image ∧
      (t.status = .halted ↔ t.run = .halted) ∧
      (t.status = .faulted t.fault.kind t.fault.pc ↔ t.run = .faulted) ∧
      (t.status = .stepLimitReached ↔ t.run = .fetch)

/-- A run ends in one state only, and stays there (R116, R178): two ends of one start are equal, a state at the end is kept
by any number of steps, and the host gets one answer at most. `Run(NONE)` on a loaded core answers exactly the end a
long enough limit reaches, never `StepLimitReached` (R109). -/
def Obligations.RunEndsInOneState : Prop :=
  (∀ s t u : State, runsToEnd s t → runsToEnd s u → t = u) ∧
  (∀ (t : State) (n : Nat), t.ended → runFor n t = .next t) ∧
  (∀ (h : HostCore) (limit : Option Nat) (p q : HostCore × Reply), h.runAnswers limit p → h.runAnswers limit q → p = q) ∧
  ∀ (cfg : Config) (s : State) (p : HostCore × Reply),
    HostCore.runAnswers { cfg := cfg, state := some s } none p ↔
      ∃ n t, runFor n s = .next t ∧ t.ended ∧ p.1 = { cfg := cfg, state := some t } ∧
        p.2 = .ran (if t.run = .halted then .halted else .faulted t.fault.kind t.fault.pc)

/-- The introspection of R111 (numbers: the spec's own decision D17) hides nothing but the image and the parameters, which
the host gave: two states of the invariant that agree on these and look alike are the same state. -/
def Obligations.ObservationShowsTheState : Prop :=
  ∀ s t : State, s.Inv → t.Inv → s.cfg = t.cfg → s.img = t.img → s.observe = t.observe → s = t

/-! ## The assembly language -/

/-- An assembled image has at most 256 bytes (R93) and disassembles to the instructions its source denotes, whose encodings
it is, none of them `CMP` (R79, R90, R95), so no step of the core can find an invalid or disabled byte at an instruction's start. -/
def Obligations.AssembledImageDisassembles : Prop :=
  ∀ (k : AluCodes) (source : String) (img : List Byte), k.wf → assemble k source = .ok img →
    img.length ≤ 256 ∧ ∃ is, sourceDenotes k (sourceLines source) is ∧
      disassemble k img = some is ∧ img = is.flatMap (encode k) ∧
      ∀ i ∈ is, i.wf k ∧ ∀ ra rb, i ≠ .cmp ra rb

/-- Pass 1 binds a label to the sum of the sizes of the items before its first `MARK`, `MARK`s counting 0
(30_encoding.md section 4). That a later `MARK` of the name, for which the spec gives only the error, does not bind it
again is the model's choice (DESIGN CHOICE, log entry 14). -/
def Obligations.MarkBindsFollowingOffset : Prop :=
  ∀ (before after : List (Nat × Item)) (n : Nat) (name : List Char), (∀ p ∈ before, p.2 ≠ .mark name) →
    (pass1 0 [] (before ++ (n, .mark name) :: after)).1.find? name =
      some ((before.map (fun p => p.2.size)).sum)

/-- A line of `CMP`, whatever its operands, is rejected with `DisabledOpcodeError` (R90). With a comma outside a comment it
is a `SyntaxError` like any such line, which is decision D24; that it is then reported as that alone is the order of checks
the model chose (log entry 13). A line in error is reported with its line number and no image is made (R92), so no `CMP` is
silently assembled. That the first line has number 1 is the model's choice too (log entry 18). -/
def Obligations.LineErrorsAreReported : Prop :=
  (∀ (k : AluCodes) (lines : List (List Char)) (j : Nat) (line : List Char) (e : AsmErrorKind),
    lines[j]? = some line → parseLine k line = .error e →
    ∃ es, assembleLines k lines = .error es ∧ { kind := e, line := j + 1 } ∈ es) ∧
  (∀ (k : AluCodes) (line : List Char) (mnemonic : List Char) (ops : List (List Char)),
    ',' ∉ stripComment line → tokens (stripComment line) = mnemonic :: ops →
    mnemonic.map upperChar = ['C', 'M', 'P'] → parseLine k line = .error .disabledOpcode) ∧
  ∀ (k : AluCodes) (line : List Char), ',' ∈ stripComment line → parseLine k line = .error .syntaxError

/-- A blank or comment line (30_encoding.md section 4, decision D24) adds nothing to the image and moves no offset. -/
def Obligations.BlankLinesChangeNothing : Prop :=
  (∀ (k : AluCodes) (text : List Char), parseLine k ('/' :: '/' :: text) = .ok none) ∧
  ∀ (k : AluCodes) (above below : List (List Char)) (blank : List Char) (img : List Byte),
    parseLine k blank = .ok none →
    (assembleLines k (above ++ blank :: below) = .ok img ↔ assembleLines k (above ++ below) = .ok img)

/-- The assembler is what R87 to R95 say of a whole source, in both directions: it answers an image exactly if every line
parses, no label has two `MARK`s, every label of a `JMP` or `JIF` is bound to an offset below 256 and the image fits (the
limits are decisions D6, D25), and the image is then the encodings of the instructions of the source's lines in order,
each label as the offset of its `MARK`. The size an item counts is the number of bytes its instruction encodes to. -/
def Obligations.ImageIsTheSourcesInstructions : Prop :=
  (∀ (k : AluCodes) (lines : List (List Char)) (img : List Byte), assembleLines k lines = .ok img ↔
    img.length ≤ 256 ∧ ∃ is, sourceDenotes k lines is ∧ img = is.flatMap (encode k)) ∧
  (∀ (k : AluCodes) (i : Instr), (encode k i).length = i.size) ∧
  ∀ (items : List Item) (it : Item) (i : Instr), it.standsFor items i → it.size = i.size
end

