-- ==== Sys2Proof/Laws/Assembler.lean ====
section
/-! SUPPORT. What a chained parse and an assembly can answer. -/

namespace Sys2Proof.Machine

theorem Parsed.bind_eq_ok {α β : Type} {p : Parsed α} {f : α → Parsed β} {y : β} :
    p.bind f = .ok y ↔ ∃ x, p = .ok x ∧ f x = .ok y := by
  cases p <;> simp [Parsed.bind]

theorem resolve_eq_ok {sym : SymTab} {l : List Char} {b : Byte} :
    resolve sym l = .ok b ↔ ∃ off, sym.find? l = some off ∧ off < 256 ∧ b = BitVec.ofNat 8 off := by
  unfold resolve
  cases sym.find? l with
  | none => simp
  | some off => by_cases h : off < 256 <;> simp [h, eq_comm]

/-- An assembly answers instructions exactly if its lines, pass 1 and pass 2 report no error; they are those of pass 2. -/
theorem assembleInstrs_eq_ok {k : AluCodes} {lines : List (List Char)} {is : List Instr} :
    assembleInstrs k lines = .ok is ↔
      (parseLines k 1 lines).2 = [] ∧ (pass1 0 [] (parseLines k 1 lines).1).2 = [] ∧
        (pass2 (pass1 0 [] (parseLines k 1 lines).1).1 0 (parseLines k 1 lines).1) = (is, []) := by
  unfold assembleInstrs
  simp only
  generalize pass2 _ 0 _ = out
  obtain ⟨js, es⟩ := out
  generalize hall : (parseLines k 1 lines).2 ++ _ ++ es = all
  cases all with
  | nil =>
    simp only [List.append_eq_nil_iff] at hall
    simp [hall, eq_comm]
  | cons e rest =>
    simp only [reduceCtorEq, false_iff, Prod.mk.injEq]
    rintro ⟨h1, h2, -, h3⟩
    simp [h1, h2, h3] at hall

theorem assembleLines_eq_ok {k : AluCodes} {lines : List (List Char)} {img : List Byte} :
    assembleLines k lines = .ok img ↔ ∃ is, assembleInstrs k lines = .ok is ∧ img = is.flatMap (encode k) := by
  unfold assembleLines
  cases assembleInstrs k lines <;> simp [eq_comm]

end Sys2Proof.Machine
end

