-- ==== Sys2Proof/Laws/Decode.lean ====
section
/-! SUPPORT. The laws of the encoding: register fields, the ALU codes, and the shape of a decoded first byte. -/

namespace Sys2Proof

@[simp] theorem Reg.ofBits_bits (r : Reg) : Reg.ofBits r.bits = r := by cases r <;> rfl

theorem Reg.bits_ofBits : ∀ v : BitVec 2, (Reg.ofBits v).bits = v := by decide

@[simp] theorem fieldAA_aluByte (c : BitVec 3) (ra rb : Reg) : fieldAA (aluByte c ra rb) = ra := by
  revert c; cases ra <;> cases rb <;> decide

@[simp] theorem fieldBB_aluByte (c : BitVec 3) (ra rb : Reg) : fieldBB (aluByte c ra rb) = rb := by
  revert c; cases ra <;> cases rb <;> decide

@[simp] theorem fieldCCC_aluByte (c : BitVec 3) (ra rb : Reg) : fieldCCC (aluByte c ra rb) = c := by
  revert c; cases ra <;> cases rb <;> decide

@[simp] theorem aluByte_bit7 (c : BitVec 3) (ra rb : Reg) : (aluByte c ra rb).getLsbD 7 = true := by
  revert c; cases ra <;> cases rb <;> decide

/-- The one byte of the ALU class that is `END` (R73). -/
theorem aluByte_eq_endByte (c : BitVec 3) (ra rb : Reg) :
    aluByte c ra rb = 0xCF#8 ↔ c = 4#3 ∧ ra = .r3 ∧ rb = .r3 := by
  revert c; cases ra <;> cases rb <;> decide

@[simp] theorem Instr.asAlu_alu (o : AluOp) (ra rb : Reg) : (Instr.alu o ra rb).asAlu = some (o, ra, rb) := by
  cases o <;> rfl

/-- A bijection names every operation: seven different operations among seven. -/
theorem AluCodes.mem_of_wf (k : AluCodes) (h : k.wf) (o : AluOp) :
    o ∈ [k.c000, k.c001, k.c010, k.c011, k.c100, k.c101, k.c110] := by
  have hsub : [k.c000, k.c001, k.c010, k.c011, k.c100, k.c101, k.c110] ⊆
      [AluOp.add, .shr, .shl, .not, .and, .or, .xor] := fun x _ => by cases x <;> simp
  have hperm := (List.subperm_of_subset h hsub).perm_of_length_le (by simp)
  exact hperm.mem_iff.mpr (by cases o <;> simp)

/-- An operation's code names it, under a bijection. -/
theorem AluCodes.op_code (k : AluCodes) (h : k.wf) (o : AluOp) : k.op (k.code o) = some o := by
  have hmem := k.mem_of_wf h o
  simp only [List.mem_cons, List.not_mem_nil, or_false] at hmem
  unfold AluCodes.code
  split_ifs with h0 h1 h2 h3 h4 h5
  · exact congrArg some h0.symm
  · exact congrArg some h1.symm
  · exact congrArg some h2.symm
  · exact congrArg some h3.symm
  · exact congrArg some h4.symm
  · exact congrArg some h5.symm
  · exact congrArg some (by tauto)

/-- The code of an operation is the code that names it, under a bijection. -/
theorem AluCodes.code_op (k : AluCodes) (h : k.wf) (c : BitVec 3) (o : AluOp) (hc : k.op c = some o) : k.code o = c := by
  obtain ⟨a0, a1, a2, a3, a4, a5, a6⟩ := k
  simp only [AluCodes.wf, List.nodup_cons, List.mem_cons, List.not_mem_nil, or_false, not_or] at h
  have hcase : ∀ d : BitVec 3,
      d = 0#3 ∨ d = 1#3 ∨ d = 2#3 ∨ d = 3#3 ∨ d = 4#3 ∨ d = 5#3 ∨ d = 6#3 ∨ d = 7#3 := by decide
  rcases hcase c with rfl | rfl | rfl | rfl | rfl | rfl | rfl | rfl <;>
    simp [AluCodes.op] at hc <;> subst hc <;> simp [AluCodes.code] <;> grind

/-- No operation has the code 111, which is `CMP` under every assignment (R70). -/
theorem AluCodes.code_ne_seven (k : AluCodes) (o : AluOp) : k.code o ≠ 7#3 := by
  unfold AluCodes.code
  split_ifs <;> decide

end Sys2Proof
end

