-- ==== Sys2Proof/Laws/Host.lean ====
section
/-! SUPPORT. What the loop of `Run` and its answers can do. -/

namespace Sys2Proof.Machine

@[simp] theorem runFor_zero (s : State) : runFor 0 s = .next s := rfl

theorem runFor_succ_fetch {s t : State} (n : Nat) (h : s.run = .fetch) (hs : step s = .next t) :
    runFor (n + 1) s = runFor n t := by simp only [runFor, if_pos h, hs]

theorem State.ended_not_fetch {s : State} (h : s.ended) : s.run ≠ .fetch := by
  rcases h with h | h <;> simp [h]

@[simp] theorem HostCore.runAnswers_limit (h : HostCore) (n : Nat) (p : HostCore × Reply) :
    h.runAnswers (some n) p ↔ p = h.run n := Iff.rfl

@[simp] theorem HostCore.runAnswers_unloaded (cfg : Config) (p : HostCore × Reply) :
    (HostCore.unloaded cfg).runAnswers none p ↔ p = (HostCore.unloaded cfg, .refused .notLoaded) := Iff.rfl

@[simp] theorem HostCore.runAnswers_loaded (cfg : Config) (s : State) (p : HostCore × Reply) :
    HostCore.runAnswers { cfg := cfg, state := some s } none p ↔
      ∃ t, runsToEnd s t ∧ p = ({ cfg := cfg, state := some t }, .ran t.status) := Iff.rfl

/-- The status of an ended run. -/
theorem State.status_ended {t : State} (h : t.ended) :
    t.status = if t.run = .halted then .halted else .faulted t.fault.kind t.fault.pc := by
  rcases h with h | h <;> simp [State.status, h]

end Sys2Proof.Machine
end

