-- ==== Sys2Proof/Laws/State.lean ====
section
/-! SUPPORT. One lemma per field per update of the state (Machine/Ops.lean), so that no later proof unfolds an update;
and the laws of the register file. -/

namespace Sys2Proof.Machine

@[simp] theorem State.setReg_regs (s : State) (r : Reg) (v : Byte) : (s.setReg r v).regs = s.regs.set r v := rfl
@[simp] theorem State.setReg_flags (s : State) (r : Reg) (v : Byte) : (s.setReg r v).flags = s.flags := rfl
@[simp] theorem State.setReg_pc (s : State) (r : Reg) (v : Byte) : (s.setReg r v).pc = s.pc := rfl
@[simp] theorem State.setReg_run (s : State) (r : Reg) (v : Byte) : (s.setReg r v).run = s.run := rfl
@[simp] theorem State.setReg_fault (s : State) (r : Reg) (v : Byte) : (s.setReg r v).fault = s.fault := rfl
@[simp] theorem State.setReg_mem (s : State) (r : Reg) (v : Byte) : (s.setReg r v).mem = s.mem := rfl
@[simp] theorem State.setReg_img (s : State) (r : Reg) (v : Byte) : (s.setReg r v).img = s.img := rfl
@[simp] theorem State.setReg_cfg (s : State) (r : Reg) (v : Byte) : (s.setReg r v).cfg = s.cfg := rfl

@[simp] theorem State.setFlags_regs (s : State) (f : Flags) : (s.setFlags f).regs = s.regs := rfl
@[simp] theorem State.setFlags_flags (s : State) (f : Flags) : (s.setFlags f).flags = f := rfl
@[simp] theorem State.setFlags_pc (s : State) (f : Flags) : (s.setFlags f).pc = s.pc := rfl
@[simp] theorem State.setFlags_run (s : State) (f : Flags) : (s.setFlags f).run = s.run := rfl
@[simp] theorem State.setFlags_fault (s : State) (f : Flags) : (s.setFlags f).fault = s.fault := rfl
@[simp] theorem State.setFlags_mem (s : State) (f : Flags) : (s.setFlags f).mem = s.mem := rfl
@[simp] theorem State.setFlags_img (s : State) (f : Flags) : (s.setFlags f).img = s.img := rfl
@[simp] theorem State.setFlags_cfg (s : State) (f : Flags) : (s.setFlags f).cfg = s.cfg := rfl

@[simp] theorem State.setPc_regs (s : State) (p : Nat) : (s.setPc p).regs = s.regs := rfl
@[simp] theorem State.setPc_flags (s : State) (p : Nat) : (s.setPc p).flags = s.flags := rfl
@[simp] theorem State.setPc_pc (s : State) (p : Nat) : (s.setPc p).pc = p := rfl
@[simp] theorem State.setPc_run (s : State) (p : Nat) : (s.setPc p).run = s.run := rfl
@[simp] theorem State.setPc_fault (s : State) (p : Nat) : (s.setPc p).fault = s.fault := rfl
@[simp] theorem State.setPc_mem (s : State) (p : Nat) : (s.setPc p).mem = s.mem := rfl
@[simp] theorem State.setPc_img (s : State) (p : Nat) : (s.setPc p).img = s.img := rfl
@[simp] theorem State.setPc_cfg (s : State) (p : Nat) : (s.setPc p).cfg = s.cfg := rfl

@[simp] theorem State.setRun_regs (s : State) (r : RunState) : (s.setRun r).regs = s.regs := rfl
@[simp] theorem State.setRun_flags (s : State) (r : RunState) : (s.setRun r).flags = s.flags := rfl
@[simp] theorem State.setRun_pc (s : State) (r : RunState) : (s.setRun r).pc = s.pc := rfl
@[simp] theorem State.setRun_run (s : State) (r : RunState) : (s.setRun r).run = r := rfl
@[simp] theorem State.setRun_fault (s : State) (r : RunState) : (s.setRun r).fault = s.fault := rfl
@[simp] theorem State.setRun_mem (s : State) (r : RunState) : (s.setRun r).mem = s.mem := rfl
@[simp] theorem State.setRun_img (s : State) (r : RunState) : (s.setRun r).img = s.img := rfl
@[simp] theorem State.setRun_cfg (s : State) (r : RunState) : (s.setRun r).cfg = s.cfg := rfl

@[simp] theorem State.setMem_regs (s : State) (a : Nat) (v : Byte) : (s.setMem a v).regs = s.regs := rfl
@[simp] theorem State.setMem_flags (s : State) (a : Nat) (v : Byte) : (s.setMem a v).flags = s.flags := rfl
@[simp] theorem State.setMem_pc (s : State) (a : Nat) (v : Byte) : (s.setMem a v).pc = s.pc := rfl
@[simp] theorem State.setMem_run (s : State) (a : Nat) (v : Byte) : (s.setMem a v).run = s.run := rfl
@[simp] theorem State.setMem_fault (s : State) (a : Nat) (v : Byte) : (s.setMem a v).fault = s.fault := rfl
@[simp] theorem State.setMem_mem (s : State) (a : Nat) (v : Byte) : (s.setMem a v).mem = s.mem.write a v := rfl
@[simp] theorem State.setMem_img (s : State) (a : Nat) (v : Byte) : (s.setMem a v).img = s.img := rfl
@[simp] theorem State.setMem_cfg (s : State) (a : Nat) (v : Byte) : (s.setMem a v).cfg = s.cfg := rfl

@[simp] theorem State.raise_regs (s : State) (k : FaultKind) : (s.raise k).regs = s.regs := rfl
@[simp] theorem State.raise_flags (s : State) (k : FaultKind) : (s.raise k).flags = s.flags := rfl
@[simp] theorem State.raise_pc (s : State) (k : FaultKind) : (s.raise k).pc = s.pc := rfl
@[simp] theorem State.raise_run (s : State) (k : FaultKind) : (s.raise k).run = .faulted := rfl
@[simp] theorem State.raise_fault (s : State) (k : FaultKind) : (s.raise k).fault = { kind := k, pc := s.pc } := rfl
@[simp] theorem State.raise_mem (s : State) (k : FaultKind) : (s.raise k).mem = s.mem := rfl
@[simp] theorem State.raise_img (s : State) (k : FaultKind) : (s.raise k).img = s.img := rfl
@[simp] theorem State.raise_cfg (s : State) (k : FaultKind) : (s.raise k).cfg = s.cfg := rfl

/-- A register read after a write to it gives the written value. -/
@[simp] theorem Regs.get_set_same (x : Regs) (r : Reg) (v : Byte) : (x.set r v).get r = v := by cases r <;> rfl

/-- A write leaves every other register alone. -/
theorem Regs.get_set_other (x : Regs) {r q : Reg} (v : Byte) (h : q ≠ r) : (x.set r v).get q = x.get q := by
  cases r <;> cases q <;> first | rfl | exact absurd rfl h

@[simp] theorem State.setReg_reg_same (s : State) (r : Reg) (v : Byte) : (s.setReg r v).reg r = v :=
  Regs.get_set_same s.regs r v

theorem State.setReg_reg_other (s : State) {r q : Reg} (v : Byte) (h : q ≠ r) : (s.setReg r v).reg q = s.reg q :=
  Regs.get_set_other s.regs v h

@[simp] theorem State.setFlags_reg (s : State) (f : Flags) (q : Reg) : (s.setFlags f).reg q = s.reg q := rfl
@[simp] theorem State.setPc_reg (s : State) (p : Nat) (q : Reg) : (s.setPc p).reg q = s.reg q := rfl
@[simp] theorem State.setRun_reg (s : State) (r : RunState) (q : Reg) : (s.setRun r).reg q = s.reg q := rfl
@[simp] theorem State.setMem_reg (s : State) (a : Nat) (v : Byte) (q : Reg) : (s.setMem a v).reg q = s.reg q := rfl
@[simp] theorem State.raise_reg (s : State) (k : FaultKind) (q : Reg) : (s.raise k).reg q = s.reg q := rfl

/-- Changing the run state twice keeps the last; changing it to what it is changes nothing. -/
@[simp] theorem State.setRun_setRun (s : State) (r q : RunState) : (s.setRun r).setRun q = s.setRun q := rfl

theorem State.setRun_self (s : State) {r : RunState} (h : s.run = r) : s.setRun r = s := by cases h; rfl

end Sys2Proof.Machine
end

