-- ==== Sys2Proof/Laws/Memory.lean ====
section
/-! SUPPORT. The laws of the data memory: read after write, writes elsewhere, and that every operation keeps the
canonical form and the address bound. -/

namespace Sys2Proof.Machine

theorem Memory.read_cons (m : Memory) (a b : Nat) (v : Byte) (h : Memory.read m a = Memory.unlisted a) :
    Memory.read (Memory.cons a v m) b = if b = a then v else Memory.read m b := by
  unfold Memory.cons
  by_cases hv : v = Memory.unlisted a
  · by_cases hb : b = a
    · subst hb; simp [hv, h]
    · simp [hv, hb]
  · simp [hv, Memory.read]

/-- A memory whose listed addresses all lie above `a` reads at `a` as unlisted. -/
theorem Memory.read_of_above : ∀ (m : Memory) (a : Nat), (∀ c ∈ m, a < c.1) → Memory.read m a = Memory.unlisted a
  | [], _, _ => rfl
  | c :: m, a, h => by
    have hc : a ≠ c.1 := Nat.ne_of_lt (h c (List.mem_cons_self ..))
    have ih := Memory.read_of_above m a (fun d hd => h d (List.mem_cons_of_mem _ hd))
    simp [Memory.read, hc, ih]

/-- Reading after a write: the written byte at its address, the old byte everywhere else. -/
theorem Memory.read_write : ∀ (m : Memory) (a b : Nat) (v : Byte), m.wf →
    Memory.read (Memory.write m a v) b = if b = a then v else Memory.read m b
  | [], a, b, v, _ => Memory.read_cons [] a b v rfl
  | c :: m, a, b, v, h => by
    obtain ⟨hp, hu⟩ := h
    obtain ⟨hc, hm⟩ := List.pairwise_cons.mp hp
    have htail : Memory.wf m := ⟨hm, fun d hd => hu d (List.mem_cons_of_mem _ hd)⟩
    by_cases hlt : a < c.1
    · have hab : Memory.read (c :: m) a = Memory.unlisted a := by
        apply Memory.read_of_above
        intro d hd
        rcases List.mem_cons.mp hd with rfl | hd
        · exact hlt
        · exact Nat.lt_trans hlt (hc d hd)
      rw [Memory.write, if_pos hlt]
      exact Memory.read_cons _ _ _ _ hab
    · by_cases heq : a = c.1
      · have hab : Memory.read m a = Memory.unlisted a :=
          Memory.read_of_above m a (fun d hd => heq ▸ hc d hd)
        rw [Memory.write, if_neg hlt, if_pos heq, Memory.read_cons _ _ _ _ hab]
        by_cases hb : b = a
        · simp [hb]
        · simp [hb, Memory.read, heq ▸ hb]
      · rw [Memory.write, if_neg hlt, if_neg heq, Memory.read, Memory.read, Memory.read_write m a b v htail]
        by_cases hb : b = c.1
        · have : b ≠ a := fun hba => heq (hba ▸ hb)
          simp [hb, Ne.symm heq]
        · simp [hb]

theorem Memory.read_write_same (m : Memory) (a : Nat) (v : Byte) (h : m.wf) :
    Memory.read (Memory.write m a v) a = v := by simp [Memory.read_write m a a v h]

theorem Memory.read_write_other (m : Memory) {a b : Nat} (v : Byte) (h : m.wf) (hb : b ≠ a) :
    Memory.read (Memory.write m a v) b = Memory.read m b := by simp [Memory.read_write m a b v h, hb]

/-- Every address a write lists was listed before or is the written one. -/
theorem Memory.mem_write : ∀ (m : Memory) (a : Nat) (v : Byte) (d : Host.Cell),
    d ∈ Memory.write m a v → d ∈ m ∨ (d.1 = a ∧ d.2 = v ∧ v ≠ Memory.unlisted a)
  | [], a, v, d, h => by
    rw [Memory.write, Memory.cons] at h
    split at h
    · exact .inl h
    · rcases List.mem_cons.mp h with rfl | h
      · exact .inr ⟨rfl, rfl, ‹_›⟩
      · exact .inl h
  | c :: m, a, v, d, h => by
    rw [Memory.write] at h
    split at h
    · rw [Memory.cons] at h
      split at h
      · exact .inl h
      · rcases List.mem_cons.mp h with rfl | h
        · exact .inr ⟨rfl, rfl, ‹_›⟩
        · exact .inl h
    · split at h
      · rw [Memory.cons] at h
        split at h
        · exact .inl (List.mem_cons_of_mem _ h)
        · rcases List.mem_cons.mp h with rfl | h
          · exact .inr ⟨rfl, rfl, ‹_›⟩
          · exact .inl (List.mem_cons_of_mem _ h)
      · rcases List.mem_cons.mp h with rfl | h
        · exact .inl (List.mem_cons_self ..)
        · rcases Memory.mem_write m a v d h with h | h
          · exact .inl (List.mem_cons_of_mem _ h)
          · exact .inr h

theorem Memory.wf_cons {m : Memory} {a : Nat} {v : Byte} (h : m.wf) (hab : ∀ c ∈ m, a < c.1) :
    (Memory.cons a v m).wf := by
  unfold Memory.cons
  split
  · exact h
  · refine ⟨List.pairwise_cons.mpr ⟨hab, h.1⟩, ?_⟩
    intro d hd
    rcases List.mem_cons.mp hd with rfl | hd
    · assumption
    · exact h.2 d hd

/-- A write keeps the canonical form. -/
theorem Memory.wf_write : ∀ (m : Memory) (a : Nat) (v : Byte), m.wf → (Memory.write m a v).wf
  | [], _, _, h => Memory.wf_cons h (fun _ hc => nomatch hc)
  | c :: m, a, v, h => by
    obtain ⟨hp, hu⟩ := h
    obtain ⟨hc, hm⟩ := List.pairwise_cons.mp hp
    have htail : Memory.wf m := ⟨hm, fun d hd => hu d (List.mem_cons_of_mem _ hd)⟩
    rw [Memory.write]
    split
    · rename_i hlt
      refine Memory.wf_cons ⟨hp, hu⟩ ?_
      intro d hd
      rcases List.mem_cons.mp hd with rfl | hd
      · exact hlt
      · exact Nat.lt_trans hlt (hc d hd)
    · rename_i hnlt
      split
      · rename_i heq
        exact Memory.wf_cons htail (fun d hd => heq ▸ hc d hd)
      · rename_i hne
        have ih := Memory.wf_write m a v htail
        refine ⟨List.pairwise_cons.mpr ⟨?_, ih.1⟩, ?_⟩
        · intro d hd
          rcases Memory.mem_write m a v d hd with hd | ⟨h1, -, -⟩
          · exact hc d hd
          · omega
        · intro d hd
          rcases List.mem_cons.mp hd with rfl | hd
          · exact hu _ (List.mem_cons_self ..)
          · exact ih.2 d hd

/-- A write below a bound keeps the bound. -/
theorem Memory.below_write {m : Memory} {a size : Nat} (v : Byte) (h : m.below size) (ha : a < size) :
    (Memory.write m a v).below size := by
  intro d hd
  rcases Memory.mem_write m a v d hd with hd | ⟨h1, -, -⟩
  · exact h d hd
  · exact h1 ▸ ha

/-- Filling keeps the canonical form. -/
theorem Memory.wf_fill : ∀ (vs : List Byte) (m : Memory) (base : Nat), m.wf → (Memory.fill m base vs).wf
  | [], _, _, h => h
  | v :: vs, m, base, h => Memory.wf_fill vs _ _ (Memory.wf_write m base v h)

/-- Filling keeps an address bound that the filled range respects. -/
theorem Memory.below_fill : ∀ (vs : List Byte) (m : Memory) (base size : Nat), m.below size →
    base + vs.length ≤ size → (Memory.fill m base vs).below size
  | [], _, _, _, h, _ => h
  | v :: vs, m, base, size, h, hl => by
    rw [List.length_cons] at hl
    exact Memory.below_fill vs _ _ size (Memory.below_write v h (by omega)) (by omega)

/-- The reset memory is canonical. -/
theorem State.reset_mem_wf : State.reset.mem.wf := by decide

end Sys2Proof.Machine
end

