-- ==== Sys2Proof/Laws/PerInstr.lean ====
section
/-! SUPPORT. Statements about every instruction as syntax, one lemma per constructor.
`EncodeLength`: the encoding of an instruction has as many bytes as the instruction is long (30_encoding.md R59, R95). -/

namespace Sys2Proof.Laws.EncodeLength

/-- Under every `ALU_CODES`, the encoding has the instruction's length. -/
def Statement (i : Instr) : Prop := ∀ k : AluCodes, (encode k i).length = i.size

theorem end_ : Statement .end_ := fun _ => rfl
theorem add (ra rb : Reg) : Statement (.add ra rb) := fun _ => rfl
theorem shr (ra rb : Reg) : Statement (.shr ra rb) := fun _ => rfl
theorem shl (ra rb : Reg) : Statement (.shl ra rb) := fun _ => rfl
theorem not (ra rb : Reg) : Statement (.not ra rb) := fun _ => rfl
theorem and (ra rb : Reg) : Statement (.and ra rb) := fun _ => rfl
theorem or (ra rb : Reg) : Statement (.or ra rb) := fun _ => rfl
theorem xor (ra rb : Reg) : Statement (.xor ra rb) := fun _ => rfl
theorem cmp (ra rb : Reg) : Statement (.cmp ra rb) := fun _ => rfl
theorem ld (ra rb : Reg) : Statement (.ld ra rb) := fun _ => rfl
theorem st (ra rb : Reg) : Statement (.st ra rb) := fun _ => rfl
theorem data (rb : Reg) (x : Byte) : Statement (.data rb x) := fun _ => rfl
theorem jmpr (rb : Reg) : Statement (.jmpr rb) := fun _ => rfl
theorem jmp (t : Byte) : Statement (.jmp t) := fun _ => rfl
theorem jif (m : BitVec 4) (t : Byte) : Statement (.jif m t) := fun _ => rfl
theorem clf : Statement .clf := fun _ => rfl

end Sys2Proof.Laws.EncodeLength
end

