-- ==== Sys2Proof/Laws/Step.lean ====
section
/-! SUPPORT. One lemma per shared operation of a step: the data accesses, the meanings that can raise, the fetch half,
and what a step can do. -/

namespace Sys2Proof.Machine

theorem State.memRead_inRange {s : State} {a : Byte} (h : a.toNat < s.cfg.memSize) :
    s.memRead a = some (s.mem.read a.toNat) := if_pos h

theorem State.memRead_outOfRange {s : State} {a : Byte} (h : ¬a.toNat < s.cfg.memSize) : s.memRead a = none := if_neg h

theorem State.memWrite_inRange {s : State} {a : Byte} (v : Byte) (h : a.toNat < s.cfg.memSize) :
    s.memWrite a v = some (s.setMem a.toNat v) := if_pos h

theorem State.memWrite_outOfRange {s : State} {a : Byte} (v : Byte) (h : ¬a.toNat < s.cfg.memSize) :
    s.memWrite a v = none := if_neg h

theorem execLd_inRange {ra rb : Reg} {s : State} (h : (s.ldAddr ra).toNat < s.cfg.memSize) :
    execLd ra rb s = .next ((s.setReg rb (s.mem.read (s.ldAddr ra).toNat)).setPc (s.pc + 1)) := by
  simp only [execLd, State.memRead_inRange h]

theorem execLd_outOfRange {ra rb : Reg} {s : State} (h : ¬(s.ldAddr ra).toNat < s.cfg.memSize) :
    execLd ra rb s = .next (s.raise .addressOutOfRange) := by
  simp only [execLd, State.memRead_outOfRange h]

theorem execSt_inRange {ra rb : Reg} {s : State} (h : (s.stAddr ra rb).toNat < s.cfg.memSize) :
    execSt ra rb s = .next ((s.setMem (s.stAddr ra rb).toNat (s.stValue ra rb)).setPc (s.pc + 1)) := by
  simp only [execSt, State.memWrite_inRange _ h]

theorem execSt_outOfRange {ra rb : Reg} {s : State} (h : ¬(s.stAddr ra rb).toNat < s.cfg.memSize) :
    execSt ra rb s = .next (s.raise .addressOutOfRange) := by
  simp only [execSt, State.memWrite_outOfRange _ h]

/-- The run state plays no part in an instruction's own effect: executing in EXECUTE and ending the step gives what
executing in FETCH gives. -/
theorem exec_execute_endStep (i : Instr) {s : State} (h : s.run = .fetch) :
    (match exec i (s.setRun .execute) with
      | .next t => .next t.endStep
      | .fault r => .fault r
      | .refused r => .refused r) = exec i s := by
  cases i with
  | ld ra rb =>
    by_cases hr : (s.ldAddr ra).toNat < s.cfg.memSize
    · have he := execLd_inRange (ra := ra) (rb := rb) (s := s.setRun .execute) hr
      simp only [exec, he, execLd_inRange hr]
      obtain ⟨regs, flags, pc, run, fault, mem, img, cfg⟩ := s
      cases h; rfl
    · have he := execLd_outOfRange (ra := ra) (rb := rb) (s := s.setRun .execute) hr
      simp only [exec, he, execLd_outOfRange hr]
      rfl
  | st ra rb =>
    by_cases hr : (s.stAddr ra rb).toNat < s.cfg.memSize
    · have he := execSt_inRange (ra := ra) (rb := rb) (s := s.setRun .execute) hr
      simp only [exec, he, execSt_inRange hr]
      obtain ⟨regs, flags, pc, run, fault, mem, img, cfg⟩ := s
      cases h; rfl
    · have he := execSt_outOfRange (ra := ra) (rb := rb) (s := s.setRun .execute) hr
      simp only [exec, he, execSt_outOfRange hr]
      rfl
  | _ =>
    obtain ⟨regs, flags, pc, run, fault, mem, img, cfg⟩ := s
    cases h; rfl

/-- A step from FETCH: a fault of the fetch half is taken, an instruction is executed. -/
theorem step_of_fetch {s : State} (h : s.run = .fetch) :
    step s = match s.fetchInstr with
      | .fault kind => .next (s.raise kind)
      | .instr i => exec i s := by
  unfold step
  rw [h]
  cases hf : s.fetchInstr with
  | fault k => rfl
  | instr i => exact exec_execute_endStep i h

theorem step_of_instr {s : State} {i : Instr} (h : s.run = .fetch) (hi : s.fetchInstr = .instr i) :
    step s = exec i s := by rw [step_of_fetch h, hi]

theorem step_of_fault {s : State} {k : FaultKind} (h : s.run = .fetch) (hk : s.fetchInstr = .fault k) :
    step s = .next (s.raise k) := by rw [step_of_fetch h, hk]

/-- What a step that answers a next state did: nothing in a terminal state, a fault of the fetch half, or the fetched
instruction. -/
theorem step_cases {s t : State} (h : step s = .next t) :
    ((s.run = .halted ∨ s.run = .faulted) ∧ t = s) ∨
    (s.run = .fetch ∧ ∃ k, s.fetchInstr = .fault k ∧ t = s.raise k) ∨
    (s.run = .fetch ∧ ∃ i, s.fetchInstr = .instr i ∧ exec i s = .next t) := by
  cases hr : s.run with
  | halted => simp [step, hr] at h; exact .inl ⟨.inl rfl, h.symm⟩
  | faulted => simp [step, hr] at h; exact .inl ⟨.inr rfl, h.symm⟩
  | execute => simp [step, hr] at h
  | fetch =>
    rw [step_of_fetch hr] at h
    cases hf : s.fetchInstr with
    | fault k => rw [hf] at h; injection h with h; exact .inr (.inl ⟨rfl, k, rfl, h.symm⟩)
    | instr i => rw [hf] at h; exact .inr (.inr ⟨rfl, i, rfl, h⟩)

/-- What an instruction can do to a state, by the shape of its effect. -/
inductive Effect (i : Instr) (s t : State) : Prop where
  /-- An ALU instruction writes `rb`, the flags and `pc` (R120). -/
  | alu (o : AluOp) (ra rb : Reg) (hi : i.asAlu = some (o, ra, rb))
      (ht : t = ((s.setReg rb (aluResult s.cfg s.flags.c o (s.reg ra) (s.reg rb))).setFlags
        (aluFlags s.cfg s.flags.c o (s.reg ra) (s.reg rb))).setPc (s.pc + 1))
  /-- A fault taken by `CMP`, or by `LD` or `ST` on an address out of range (R151). -/
  | raise (k : FaultKind) (hk : k ≠ .none) (ht : t = s.raise k)
  /-- `LD` or `DATA` writes one register and `pc` (R136, R138). -/
  | load (rb : Reg) (v : Byte) (p : Nat) (hi : (∃ ra, i = .ld ra rb) ∨ ∃ x, i = .data rb x)
      (ht : t = (s.setReg rb v).setPc p) (hp : p = s.pc + i.size)
  /-- `ST` writes one byte in range and `pc` (R137). -/
  | store (ra rb : Reg) (hi : i = .st ra rb) (hr : (s.stAddr ra rb).toNat < s.cfg.memSize)
      (ht : t = (s.setMem (s.stAddr ra rb).toNat (s.stValue ra rb)).setPc (s.pc + 1))
  /-- A jump writes `pc`, with a byte or past itself (R140 to R142). -/
  | jump (p : Nat) (hi : (∃ rb, i = .jmpr rb) ∨ (∃ x, i = .jmp x) ∨ ∃ m x, i = .jif m x)
      (hp : p < 256 ∨ p = s.pc + i.size) (ht : t = s.setPc p)
  /-- `CLF` clears the flags (R144). -/
  | clear (hi : i = .clf) (ht : t = (s.setFlags Flags.cleared).setPc (s.pc + 1))
  /-- `END` halts (R145). -/
  | halt (hi : i = .end_) (ht : t = (s.setPc (s.pc + 1)).setRun .halted)

/-- Every instruction answers a next state, of one of the shapes of `Effect`. -/
theorem exec_effect (i : Instr) (s : State) : ∃ t, exec i s = .next t ∧ Effect i s t := by
  cases i with
  | end_ => exact ⟨_, rfl, .halt rfl rfl⟩
  | add ra rb => exact ⟨_, rfl, .alu .add ra rb rfl rfl⟩
  | shr ra rb => exact ⟨_, rfl, .alu .shr ra rb rfl rfl⟩
  | shl ra rb => exact ⟨_, rfl, .alu .shl ra rb rfl rfl⟩
  | not ra rb => exact ⟨_, rfl, .alu .not ra rb rfl rfl⟩
  | and ra rb => exact ⟨_, rfl, .alu .and ra rb rfl rfl⟩
  | or ra rb => exact ⟨_, rfl, .alu .or ra rb rfl rfl⟩
  | xor ra rb => exact ⟨_, rfl, .alu .xor ra rb rfl rfl⟩
  | cmp ra rb => exact ⟨_, rfl, .raise .decodeDisabledOpcode (by decide) rfl⟩
  | ld ra rb =>
    by_cases h : (s.ldAddr ra).toNat < s.cfg.memSize
    · exact ⟨_, execLd_inRange h, .load rb _ _ (.inl ⟨ra, rfl⟩) rfl rfl⟩
    · exact ⟨_, execLd_outOfRange h, .raise .addressOutOfRange (by decide) rfl⟩
  | st ra rb =>
    by_cases h : (s.stAddr ra rb).toNat < s.cfg.memSize
    · exact ⟨_, execSt_inRange h, .store ra rb rfl h rfl⟩
    · exact ⟨_, execSt_outOfRange h, .raise .addressOutOfRange (by decide) rfl⟩
  | data rb x => exact ⟨_, rfl, .load rb x _ (.inr ⟨x, rfl⟩) rfl rfl⟩
  | jmpr rb => exact ⟨_, rfl, .jump _ (.inl ⟨rb, rfl⟩) (.inl (s.reg rb).isLt) rfl⟩
  | jmp x => exact ⟨_, rfl, .jump _ (.inr (.inl ⟨x, rfl⟩)) (.inl x.isLt) rfl⟩
  | jif m x =>
    refine ⟨_, rfl, .jump _ (.inr (.inr ⟨m, x, rfl⟩)) ?_ rfl⟩
    split
    · exact .inl x.isLt
    · exact .inr rfl
  | clf => exact ⟨_, rfl, .clear rfl rfl⟩

/-- A next state of an instruction has one of the shapes of `Effect`. -/
theorem exec_cases {i : Instr} {s t : State} (h : exec i s = .next t) : Effect i s t := by
  obtain ⟨t', ht', e⟩ := exec_effect i s
  rw [h] at ht'
  injection ht' with ht'
  exact ht' ▸ e

/-- A fault of the fetch half has a kind. -/
theorem State.fetchInstr_fault_kind {s : State} {k : FaultKind} (h : s.fetchInstr = .fault k) : k ≠ .none := by
  unfold State.fetchInstr at h
  split at h
  · cases h; decide
  · split at h
    · cases h; decide
    · cases h
    · split at h
      · cases h; decide
      · cases h

end Sys2Proof.Machine
end

