-- ==== Sys2Proof/Tests/Slice0.lean ====
section
/-! SUPPORT. Small tests. Expected results come from spec/95_test_vectors.md (the id stands in each docstring) or from the
encoding patterns of spec/30_encoding.md R60; no expected result was read off the model. The last section gives, for each
statement with hypotheses, a concrete state and operands that meet them. -/

namespace Sys2Proof.Tests

open Sys2Proof.Machine

/-- A state at offset 0 of an image, otherwise as after reset but for the registers and flags. -/
def st (img : List Byte) (r0 r1 r2 r3 : Byte) (c a e z : Bool) : State :=
  { State.reset with
    img := img
    regs := { r0 := r0, r1 := r1, r2 := r2, r3 := r3 }
    flags := { c := c, a := a, e := e, z := z } }

/-- The state an outcome answers meets `p`. -/
def after (o : Host.Outcome State Fault Refusal) (p : State → Bool) : Bool :=
  match o with
  | .next t => p t
  | .fault _ => false
  | .refused _ => false

/-- The flags of a state as a number, C first (R31). -/
def flagsOf (t : State) : Nat := t.flags.pack.toNat

/-! ### Well-formedness refuses -/

/-- C1: the operation of code 100 on R3, R3 has no encoding. -/
theorem test_wf_refuses_and_r3_r3 : ¬Instr.wf AluCodes.default (.and .r3 .r3) := by decide

theorem test_wf_accepts_and_r3_r2 : Instr.wf AluCodes.default (.and .r3 .r2) := by decide

/-- D1: `ALU_CODES` with one operation twice is no bijection. -/
theorem test_wf_refuses_alu_codes : ¬AluCodes.wf { AluCodes.default with c001 := .add } := by decide

/-- D5: `MEM_SIZE` is 1..256. -/
theorem test_wf_refuses_mem_size_0 : ¬Config.wf { Config.default with memSize := 0 } := by decide

theorem test_wf_refuses_mem_size_257 : ¬Config.wf { Config.default with memSize := 257 } := by decide

/-- A listed 0 (what an unlisted byte reads as) and falling addresses are not canonical. -/
theorem test_wf_refuses_listed_zero : ¬Memory.wf [(3, 0#8)] := by decide

theorem test_wf_refuses_falling_addresses : ¬Memory.wf [(5, 1#8), (3, 1#8)] := by decide

/-! ### Decoding: every constructor, the word written out bit by bit from R60 and R70 -/

theorem test_decode_end : decode AluCodes.default [0b11001111#8] = .instr .end_ [] := by decide
theorem test_decode_add : decode AluCodes.default [0b10000001#8] = .instr (.add .r0 .r1) [] := by decide
theorem test_decode_shr : decode AluCodes.default [0b10011000#8] = .instr (.shr .r2 .r0) [] := by decide
theorem test_decode_shl : decode AluCodes.default [0b10101010#8] = .instr (.shl .r2 .r2) [] := by decide
theorem test_decode_not : decode AluCodes.default [0b10110110#8] = .instr (.not .r1 .r2) [] := by decide
theorem test_decode_and : decode AluCodes.default [0b11001110#8] = .instr (.and .r3 .r2) [] := by decide
theorem test_decode_or : decode AluCodes.default [0b11010111#8] = .instr (.or .r1 .r3) [] := by decide
theorem test_decode_xor : decode AluCodes.default [0b11100001#8] = .instr (.xor .r0 .r1) [] := by decide
theorem test_decode_cmp : decode AluCodes.default [0b11110001#8] = .instr (.cmp .r0 .r1) [] := by decide
theorem test_decode_ld : decode AluCodes.default [0b00001011#8] = .instr (.ld .r2 .r3) [] := by decide
theorem test_decode_st : decode AluCodes.default [0b00011001#8] = .instr (.st .r2 .r1) [] := by decide
theorem test_decode_data : decode AluCodes.default [0b00100011#8, 0x2A#8] = .instr (.data .r3 0x2A#8) [] := by decide
theorem test_decode_jmpr : decode AluCodes.default [0b00110010#8] = .instr (.jmpr .r2) [] := by decide
theorem test_decode_jmp : decode AluCodes.default [0b01000000#8, 5#8, 9#8] = .instr (.jmp 5#8) [9#8] := by decide
theorem test_decode_jif : decode AluCodes.default [0b01011000#8, 9#8] = .instr (.jif 0b1000#4 9#8) [] := by decide
theorem test_decode_clf : decode AluCodes.default [0b01100000#8] = .instr .clf [] := by decide

/-- The host's numbering: the second byte of a word is bits 15..8. -/
theorem test_table_word_data : decodeTableWord 16 0x6321 = some (.data .r1 0x63#8) := by decide

/-- Bits from `nbits` on count as 0. -/
theorem test_table_word_nbits : decodeTableWord 8 0xFF40 = some (.jmp 0#8) := by decide

/-- R74: 170 executable first bytes, 16 disabled, 70 invalid. -/
theorem test_opcode_map_counts :
    ((List.range 256).countP fun n => decide (decodeOpcode AluCodes.default (BitVec.ofNat 8 n) = .invalid)) = 70 ∧
    ((List.range 256).countP fun n =>
      match decodeOpcode AluCodes.default (BitVec.ofNat 8 n) with
      | .complete (.cmp _ _) => true
      | _ => false) = 16 := by decide +kernel

/-- L1-8: a disassembly. -/
theorem test_disassemble :
    disassemble AluCodes.default [0x23#8, 0x2A#8, 0xE1#8, 0x0B#8, 0x60#8, 0xCF#8] =
      some [.data .r3 42#8, .xor .r0 .r1, .ld .r2 .r3, .clf, .end_] := by decide

/-- L1-8: the bytes of the same program. -/
theorem test_encode :
    [Instr.data .r3 42#8, .xor .r0 .r1, .ld .r2 .r3, .clf, .end_].flatMap (encode AluCodes.default) =
      [0x23#8, 0x2A#8, 0xE1#8, 0x0B#8, 0x60#8, 0xCF#8] := by decide

/-! ### One step of each instruction -/

/-- L1-1, A1: 255 + 1. -/
theorem test_add_carry : after (step (st [0x81#8] 255#8 1#8 0#8 0#8 false false false false)) (fun t =>
    t.regs == { r0 := 255#8, r1 := 0#8, r2 := 0#8, r3 := 0#8 } && flagsOf t == 0b1101 && t.pc == 1) := by decide

/-- V3: `ADD R2 R2` with 0x81. -/
theorem test_add_same_register : after (step (st [0x8A#8] 0#8 0#8 0x81#8 0#8 false false false false)) (fun t =>
    t.reg .r2 == 2#8 && flagsOf t == 0b1010) := by decide

/-- A9. -/
theorem test_shr_drops_bit : after (step (st [0x91#8] 0#8 0x81#8 0#8 0#8 true false false false)) (fun t =>
    t.reg .r1 == 0x40#8 && flagsOf t == 0b1000) := by decide

/-- D8: under `SHIFT_FILL` = `OLD_C` the old C enters at bit 7. -/
theorem test_shr_old_c : after (step { st [0x91#8] 0#8 0x81#8 0#8 0#8 true false false false with
    cfg := { Config.default with shiftFill := .oldC } }) (fun t => t.reg .r1 == 0xC0#8) := by decide

/-- L1-2, A14. -/
theorem test_shl_drops_bit : after (step (st [0xA1#8] 0#8 0x81#8 0#8 0#8 true false false false)) (fun t =>
    t.reg .r1 == 2#8 && flagsOf t == 0b1000) := by decide

/-- A19. -/
theorem test_not : after (step (st [0xB1#8] 0x10#8 0x0F#8 0#8 0#8 false false false false)) (fun t =>
    t.reg .r1 == 0xF0#8 && flagsOf t == 0b0100) := by decide

/-- V1: all four flags are rewritten, C cleared. -/
theorem test_not_clears_carry : after (step (st [0xB5#8] 0#8 0#8 0#8 0#8 true true false true)) (fun t =>
    t.reg .r1 == 0xFF#8 && flagsOf t == 0b0010) := by decide

/-- A24. -/
theorem test_and : after (step (st [0xC1#8] 0xCC#8 0xAA#8 0#8 0#8 true false false false)) (fun t =>
    t.reg .r1 == 0x88#8 && flagsOf t == 0b0100) := by decide

/-- A31. -/
theorem test_or : after (step (st [0xD1#8] 1#8 2#8 0#8 0#8 true true true true)) (fun t =>
    t.reg .r1 == 3#8 && flagsOf t == 0) := by decide

/-- A33. -/
theorem test_xor : after (step (st [0xE1#8] 0x5A#8 0x5A#8 0#8 0#8 true true false false)) (fun t =>
    t.reg .r1 == 0#8 && flagsOf t == 0b0011) := by decide

/-- V5: `FF` takes fault 3 and changes nothing else. -/
theorem test_cmp_faults : after (step (st [0xFF#8] 0#8 0#8 0#8 7#8 true false true false)) (fun t =>
    t.run == .faulted && t.fault.kind.code == 3 && t.fault.pc == 0 && t.reg .r3 == 7#8 && t.pc == 0 &&
      flagsOf t == 0b1010) := by decide

/-- M1. -/
theorem test_ld : after (step { st [0x01#8] 0x10#8 0#8 0#8 0#8 true false true false with mem := [(0x10, 0x5A#8)] })
    (fun t => t.reg .r1 == 0x5A#8 && t.reg .r0 == 0x10#8 && t.pc == 1 && flagsOf t == 0b1010) := by decide

/-- M10: `MEM_SIZE` = 16 and address 0x20. -/
theorem test_ld_out_of_range : after (step { st [0x01#8] 0x20#8 9#8 0#8 0#8 false false false false with
    cfg := { Config.default with memSize := 16 } }) (fun t =>
    t.run == .faulted && t.fault.kind.code == 2 && t.fault.pc == 0 && t.reg .r1 == 9#8 && t.pc == 0) := by decide

/-- M4. -/
theorem test_st : after (step (st [0x11#8] 0x42#8 0x80#8 0#8 0#8 false false false false)) (fun t =>
    t.mem == [(0x80, 0x42#8)] && t.pc == 1 && t.reg .r0 == 0x42#8 && t.reg .r1 == 0x80#8) := by decide

/-- M13: `ST_ROLES` = `SWAPPED`. -/
theorem test_st_swapped : after (step { st [0x11#8] 0x42#8 0x80#8 0#8 0#8 false false false false with
    cfg := { Config.default with stRoles := .swapped } }) (fun t => t.mem == [(0x42, 0x80#8)]) := by decide

/-- M8: no flag changes. -/
theorem test_data : after (step (st [0x23#8, 0#8] 0#8 0#8 0#8 9#8 true false false false)) (fun t =>
    t.reg .r3 == 0#8 && t.pc == 2 && flagsOf t == 0b1000) := by decide

/-- M12: the operand byte is missing. -/
theorem test_data_without_operand : after (step (st [0x20#8] 5#8 0#8 0#8 0#8 false false false false)) (fun t =>
    t.run == .faulted && t.fault.kind.code == 2 && t.fault.pc == 0 && t.reg .r0 == 5#8) := by decide

/-- J1. -/
theorem test_jmpr : after (step (st [0x32#8] 0#8 0#8 7#8 0#8 false true false false)) (fun t =>
    t.pc == 7 && flagsOf t == 0b0100 && t.run == .fetch) := by decide

/-- R141's example. -/
theorem test_jmp : after (step (st [0x40#8, 5#8] 0#8 0#8 0#8 0#8 false false false false)) (fun t =>
    t.pc == 5 && t.run == .fetch) := by decide

/-- J8: `JIF 1101` at offset 254 with F = 1101. -/
theorem test_jif_taken : after (step { st (List.replicate 254 0#8 ++ [0x5D#8, 0#8]) 0#8 0#8 0#8 0#8 true true false true with
    pc := 254 }) (fun t => t.pc == 0) := by decide

/-- J9: not taken at offset 254, `pc` = 256. -/
theorem test_jif_not_taken : after (step { st (List.replicate 254 0#8 ++ [0x51#8, 0#8]) 0#8 0#8 0#8 0#8 false false false
    false with pc := 254 }) (fun t => t.pc == 256 && t.run == .fetch) := by decide

/-- The table of 95_test_vectors.md 2.4, one column: the masks taken with F = 1101. -/
theorem test_jif_masks : ((List.range 16).filter fun n =>
    condHolds Config.default (BitVec.ofNat 4 n) { c := true, a := true, e := false, z := true }) =
      [0, 1, 4, 5, 8, 9, 12, 13] := by decide

/-- J10. -/
theorem test_clf : after (step (st [0x60#8] 0#8 3#8 0#8 0#8 true true false true)) (fun t =>
    flagsOf t == 0 && t.pc == 1 && t.reg .r1 == 3#8) := by decide

/-- J12: `END` at offset 255. -/
theorem test_end_at_255 : after (step { st (List.replicate 255 0#8 ++ [0xCF#8]) 0#8 0#8 0#8 0#8 true false false false with
    pc := 255 }) (fun t => t.pc == 256 && t.run == .halted && flagsOf t == 0b1000) := by decide

/-- V6: 0xCF is `END`, not `AND R3 R3`. -/
theorem test_end_is_not_and : after (step (st [0xCF#8] 0#8 0#8 0#8 7#8 false false true false)) (fun t =>
    t.run == .halted && t.pc == 1 && t.reg .r3 == 7#8 && flagsOf t == 0b0010) := by decide

/-! ### Fetch, decode faults, memory, host -/

/-- X1: the empty image. -/
theorem test_reset_step_faults : after (step State.reset) (fun t =>
    t.run == .faulted && t.fault.kind.code == 2 && t.fault.pc == 0 && t.pc == 0) := by decide

/-- X5: 0x41 is not `JMP`. -/
theorem test_invalid_byte : after (step (st [0x41#8, 0#8] 0#8 0#8 0#8 0#8 false false false false)) (fun t =>
    t.run == .faulted && t.fault.kind.code == 1 && t.fault.pc == 0 && t.pc == 0) := by decide

/-- X8: a disabled byte at the end of the image is a decode fault. -/
theorem test_disabled_last_byte : after (step (st [0xF1#8] 0#8 0#8 0#8 0#8 false false false false)) (fun t =>
    t.fault.kind.code == 3) := by decide

/-- A placed word is the next instruction. -/
theorem test_withFetchWord : after (step (State.reset.withFetchWord 16 0x0521)) (fun t =>
    t.reg .r1 == 5#8 && t.pc == 2) := by decide

/-- Storing 0 removes the entry. -/
theorem test_memory_write_zero : Memory.write [(1, 1#8), (2, 2#8), (3, 3#8)] 2 0#8 = [(1, 1#8), (3, 3#8)] := by decide

/-- X11, D28: a refused load and a step before any load. -/
theorem test_load_refused : ((HostCore.unloaded Config.default).load (List.replicate 257 0#8)).2 = .refused .imageTooLong ∧
    (HostCore.unloaded Config.default).step.2 = .refused .notLoaded := by decide +kernel

/-- P5: `Run(5)` on a self-jump. -/
theorem test_run_limit : (((HostCore.unloaded Config.default).load [0x40#8, 0#8]).1.run 5).2 = .ran .stepLimitReached := by
  decide

/-- R108, D28: `Run(NONE)` before any load is refused, and answers nothing else. -/
theorem test_run_unlimited_unloaded (p : HostCore × Reply) : (HostCore.unloaded Config.default).runAnswers none p ↔
    p = (HostCore.unloaded Config.default, .refused .notLoaded) := by simp

/-- A3: the ALU block, and A36: at 111 only `dis`. -/
theorem test_alu_block : aluBlock Config.default true 0#3 0#8 0#8 =
      { dis := false, out := some { r := 0#8, flags := { c := false, a := false, e := true, z := true } } } ∧
    aluBlock Config.default true 7#3 1#8 2#8 = { dis := true, out := none } := by decide

/-- R31, R32, R34: what the introspection port shows of a faulted core. -/
theorem test_observe : (State.raise { st [] 1#8 2#8 3#8 4#8 true false false true with
      mem := [(1, 7#8)], cfg := { Config.default with memSize := 3 }, pc := 9 }
      .decodeDisabledOpcode).observe =
    { regs := [1#8, 2#8, 3#8, 4#8], flags := 0b1001#4, mem := [0#8, 7#8, 0#8], pc := 9, run := 3, faultKind := 3,
      faultPc := 9 } := by decide

/-! ### The assembler -/

/-- What an assembly answers, as data that can be compared. -/
def asm (source : String) : List Byte ⊕ List AsmError :=
  match assemble AluCodes.default source with
  | .ok img => .inl img
  | .error es => .inr es

/-- S1, S2, S14. -/
theorem test_asm_case_literal_comment : asm "add r2 r1\n DATA R1 0x80\nEND // done\n" = .inl [0x89#8, 0x21#8, 0x80#8, 0xCF#8] := by
  decide

/-- L1-8: a forward label. -/
theorem test_asm_forward_label : asm "JMP fwd\nCLF\nMARK fwd\nEND" = .inl [0x40#8, 3#8, 0x60#8, 0xCF#8] := by decide

/-- S16. -/
theorem test_asm_jif : asm "MARK t\nJIF 1111 t" = .inl [0x5F#8, 0#8] := by decide

/-- L1-6: the second `MARK` of a name. -/
theorem test_asm_duplicate_label : asm "MARK loop\nCLF\nMARK loop\nJMP loop" = .inr [{ kind := .duplicateLabel, line := 3 }] := by
  decide

/-- S3 to S13, one a line. -/
theorem test_asm_errors :
    asm "DATA R1 256\nDATA R1 -1\nADD R0 R4\nADD R0\nADD R0, R1\nCMP R0 R1\nMUL R0 R1\nJMP 5\nJIF 101 t\nAND R3 R3\nJMP nowhere" =
      .inr [{ kind := .operandRange, line := 1 }, { kind := .operandRange, line := 2 }, { kind := .operandRange, line := 3 },
        { kind := .syntaxError, line := 4 }, { kind := .syntaxError, line := 5 }, { kind := .disabledOpcode, line := 6 },
        { kind := .unknownMnemonic, line := 7 }, { kind := .syntaxError, line := 8 }, { kind := .syntaxError, line := 9 },
        { kind := .unencodableInstruction, line := 10 }, { kind := .unknownLabel, line := 11 }] := by decide

/-- S15: 258 bytes. -/
theorem test_asm_image_size : (match assembleLines AluCodes.default (List.replicate 129 "DATA R0 0".toList) with
    | .ok _ => []
    | .error es => es) = [{ kind := .imageSize, line := 129 }] := by decide +kernel

/-! ### Witnesses: states and operands that meet the hypotheses of the statements -/

/-- A configuration with every parameter away from its default. -/
def otherCfg : Config :=
  { aluCodes := { AluCodes.default with c000 := .and, c100 := .add }, stRoles := .swapped, shiftFill := .oldC,
    notCarry := .unchanged, emptyMaskTaken := false, memSize := 16 }

theorem witness_config_wf : otherCfg.wf ∧ Config.default.wf := by decide

/-- A loaded program with memory, registers and flags set. -/
def loaded (b : List Byte) : State :=
  { st b 0x20#8 0x10#8 0xFF#8 3#8 true true false false with mem := [(0x10, 0x5A#8), (0xFF, 1#8)] }

/-- The same under `otherCfg`. -/
def loadedOther (b : List Byte) : State :=
  { st b 0x20#8 0x10#8 0x0F#8 0#8 true false true false with mem := [(0x0F, 1#8)], cfg := otherCfg }

/-- DecodeOfEncode, EncodeOfDecode, EndByteIsEnd, DisassemblyInvertsEncoding: a non-default bijection, an encodable
instruction and bytes that decode; at the last operand value. -/
theorem witness_encoding : otherCfg.aluCodes.wf ∧ (∀ i ∈ [Instr.and .r3 .r3, .jif 15#4 255#8], i.wf otherCfg.aluCodes) ∧
    decode otherCfg.aluCodes [0x8F#8, 1#8] = .instr (.and .r3 .r3) [1#8] ∧
    decode otherCfg.aluCodes [0xCF#8] = .instr .end_ [] := by decide

/-- FirstByteFixesLength: a 2-byte and a 1-byte first byte, at a boundary of each. -/
theorem witness_length : decode AluCodes.default [0x5F#8, 1#8] = .instr (.jif 15#4 1#8) [] ∧
    (decodeOpcode AluCodes.default 0x60#8).length = 1 := by decide

/-- IllegalFirstBytesFault: the lowest and the highest invalid byte, the last one of the image. -/
theorem witness_invalid_bytes : invalidByte 0x24#8 ∧ invalidByte 0x7F#8 ∧ (loaded [0x7F#8]).run = .fetch ∧
    (loaded [0x7F#8]).img[(loaded [0x7F#8]).pc]? = some 0x7F#8 := by simp [invalidByte, loaded, st]; decide

/-- ShrResult, ShlResult, NotResult: both settings of each parameter. -/
theorem witness_alu_parameters : (loaded []).cfg.shiftFill = .zero ∧ (loaded []).cfg.notCarry = .clear ∧
    (loadedOther []).cfg.shiftFill = .oldC ∧ (loadedOther []).cfg.notCarry = .unchanged := by decide

/-- CmpTakesDisabledFault: the lowest disabled byte. -/
theorem witness_cmp : (loaded [0xF0#8]).run = .fetch ∧ (loaded [0xF0#8]).img[(loaded [0xF0#8]).pc]? = some 0xF0#8 ∧
    0xF0 ≤ (0xF0#8).toNat := by decide

/-- SameRegisterOperands. -/
theorem witness_same_register : Instr.asAlu (.xor .r2 .r2) = some (.xor, .r2, .r2) ∧
    ∃ t, exec (.xor .r2 .r2) (loaded []) = .next t := ⟨rfl, _, rfl⟩

/-- AluIgnoresOldFlags, OnlyJifReadsFlags: two states that differ in the flags alone. -/
theorem witness_flags_differ : Instr.asAlu (.shr .r0 .r1) = some (.shr, .r0, .r1) ∧
    ((loaded []).setFlags Flags.cleared).cfg = (loaded []).cfg ∧ ((loaded []).setFlags Flags.cleared).regs = (loaded []).regs ∧
    (loaded []).flags ≠ ((loaded []).setFlags Flags.cleared).flags ∧ (∀ m x, Instr.shr .r0 .r1 ≠ .jif m x) := by
  refine ⟨rfl, rfl, rfl, by decide, fun _ _ => by simp⟩

/-- LdResult: the last address in range and the first out of range. -/
theorem witness_ld_clauses : ((loadedOther []).reg .r2).toNat < (loadedOther []).cfg.memSize ∧
    (loadedOther []).cfg.memSize ≤ ((loadedOther []).reg .r1).toNat ∧
    ((loaded []).reg .r2).toNat < (loaded []).cfg.memSize := by decide

/-- StResult: both roles, the last address in range, the first out of range. -/
theorem witness_st_clauses : (loaded []).mem.wf ∧ (loadedOther []).mem.wf ∧ (loaded []).cfg.stRoles = .table ∧
    (loadedOther []).cfg.stRoles = .swapped ∧
    ((loaded []).stAddr .r0 .r2).toNat < (loaded []).cfg.memSize ∧
    ((loadedOther []).stAddr .r2 .r0).toNat < (loadedOther []).cfg.memSize ∧
    (loadedOther []).cfg.memSize ≤ ((loadedOther []).stAddr .r1 .r0).toNat := by decide

/-- LoadAfterStoreGivesTheByte: the highest address. -/
theorem witness_load_after_store : (loaded []).mem.wf ∧ (loaded []).cfg.stRoles = .table ∧
    ((loaded []).reg .r2).toNat < (loaded []).cfg.memSize ∧ ∃ t, exec (.st .r0 .r2) (loaded []) = .next t :=
  ⟨by decide, rfl, by decide, _, rfl⟩

/-- MemoryIsItsReadings. -/
theorem witness_memory : (loaded []).mem.wf ∧ ∀ a, (loaded []).mem.read a = (loaded []).mem.read a := ⟨by decide, fun _ => rfl⟩

/-- MissingOperandByteFaults, and the missing-operand clauses of DataResult, JmpResult, JifResult: the last byte of each
range, at the end of the image. -/
theorem witness_missing_operand : twoByteFirst 0x23#8 ∧ twoByteFirst 0x40#8 ∧ twoByteFirst 0x5F#8 ∧
    (loaded [0x5F#8]).run = .fetch ∧ (loaded [0x5F#8]).img[(loaded [0x5F#8]).pc]? = some 0x5F#8 ∧
    (loaded [0x5F#8]).img.length = (loaded [0x5F#8]).pc + 1 := by simp [twoByteFirst, loaded, st]; decide

/-- FetchBeyondImageFaults, and the target clauses of the jumps: `pc` at the image's end and far beyond it. -/
theorem witness_beyond_image : State.reset.run = .fetch ∧ State.reset.img.length ≤ State.reset.pc ∧
    ∃ t, exec (.jmpr .r2) (loaded [0x32#8]) = .next t ∧ t.run = .fetch ∧ t.img.length ≤ t.pc :=
  ⟨rfl, by decide, _, rfl, rfl, by decide⟩

/-- JifResult: the empty mask under both parameters, a mask with A and E where not both flags are true. -/
theorem witness_jif_clauses : (loaded []).cfg.emptyMaskTaken = true ∧ (loadedOther []).cfg.emptyMaskTaken = false ∧
    ¬((loaded []).flags.a = true ∧ (loaded []).flags.e = true) ∧ (0b0110#4).getLsbD 2 = true ∧ (0b0110#4).getLsbD 1 = true := by
  decide

/-- ClfResult: both masks' clauses. -/
theorem witness_clf : (1#4 : BitVec 4) ≠ 0#4 ∧ (loaded []).cfg.emptyMaskTaken = true := by decide

/-- EndResult: a step that halts. -/
theorem witness_end : (loaded [0xCF#8]).run = .fetch ∧ ∃ t, step (loaded [0xCF#8]) = .next t ∧ t.run = .halted :=
  ⟨rfl, _, rfl, rfl⟩

/-- SelfJumpNeverEnds. -/
theorem witness_self_jump : (loaded [0x40#8, 0#8]).run = .fetch ∧ decodesTo (loaded [0x40#8, 0#8]) (.jmp 0#8) ∧
    (0#8).toNat = (loaded [0x40#8, 0#8]).pc := ⟨rfl, ⟨[], by decide⟩, rfl⟩

/-- StepRunsDecodedInstruction, PcAfterStep: a step that completes; and one of `LD` that faults. -/
theorem witness_step : decodesTo (loaded [0x22#8, 7#8]) (.data .r2 7#8) ∧
    (∃ t, step (loaded [0x22#8, 7#8]) = .next t ∧ t.run ≠ .faulted) ∧
    decodesTo (loadedOther [0x05#8]) (.ld .r1 .r1) ∧ ∃ t, step (loadedOther [0x05#8]) = .next t ∧ t.run = .faulted :=
  ⟨⟨[], by decide⟩, ⟨_, rfl, by decide⟩, ⟨[], by decide⟩, _, rfl, rfl⟩

/-- StepInTerminalStateChangesNothing, RunEndsInOneState: both terminal states, and a run that ends. -/
theorem witness_terminal : ((loaded []).setRun .halted).ended ∧ ((loaded []).raise .addressOutOfRange).ended ∧
    ∃ t, runsToEnd (loaded [0xCF#8]) t := ⟨.inl rfl, .inr rfl, _, 1, rfl, .inl rfl⟩

/-- StepFaultsExactlyWhen: a data address out of range for `LD` and for `ST`, at byte boundaries of the two ranges. -/
theorem witness_step_faults : (loadedOther [0x0F#8]).run = .fetch ∧
    (loadedOther [0x05#8]).cfg.memSize ≤ ((loadedOther [0x05#8]).reg (fieldAA 0x05#8)).toNat ∧
    (loadedOther [0x10#8]).cfg.memSize ≤ ((loadedOther [0x10#8]).stAddr (fieldAA 0x10#8) (fieldBB 0x10#8)).toNat := by decide

/-- FaultsArePrecise, FaultRecordWriters: a step into FAULTED. -/
theorem witness_fault : (loaded [0x61#8]).run = .fetch ∧
    ∃ t, step (loaded [0x61#8]) = .next t ∧ t.run = .faulted ∧ t.fault ≠ (loaded [0x61#8]).fault :=
  ⟨rfl, _, rfl, rfl, by decide⟩

/-- StepTotalAndKeepsInvariant: a loaded core with registers, flags, memory and a last instruction of the image. -/
theorem witness_invariant : (loaded [0x1B#8]).Inv :=
  { cfgWf := by decide, memWf := by decide, memBelow := by decide, imgLe := by decide, pcLe := by decide
    notExecute := by decide, faultIff := by decide, faultPc := by decide, noFaultPc := by decide, flagsExclude := by decide }

/-- ResetRegistersPcFlags, LoadGivesResetValues, LoadMeetsInvariant, RunOfLoadedCore: the longest image and the longest `mem_init`. -/
theorem witness_load : (List.replicate 256 0xCF#8).length ≤ 256 ∧ (List.replicate 16 1#8).length ≤ otherCfg.memSize ∧
    ∃ s, State.load otherCfg [0xCF#8] [1#8] = .ok s := ⟨by decide +kernel, by decide, _, rfl⟩

/-- RejectedLoadLeavesNothingToRun: the shortest image and the shortest `mem_init` that are refused. -/
theorem witness_load_rejected : 256 < (List.replicate 257 0#8).length ∧ otherCfg.memSize < (List.replicate 17 1#8).length := by
  decide +kernel

/-- FlagWriters: a `CLF` that changes the flags, and an ALU instruction. -/
theorem witness_flag_change : (∃ t, step (loaded [0x60#8]) = .next t ∧ t.flags ≠ (loaded [0x60#8]).flags) ∧
    decodesTo (loaded [0x60#8]) .clf ∧ decodesTo (loaded [0x81#8]) (.add .r0 .r1) ∧
    Instr.asAlu (.add .r0 .r1) = some (.add, .r0, .r1) := ⟨⟨_, rfl, by decide⟩, ⟨[], by decide⟩, ⟨[], by decide⟩, rfl⟩

/-- RegisterWriters. -/
theorem witness_register_change : ∃ t, step (loaded [0x06#8]) = .next t ∧ t.reg .r2 ≠ (loaded [0x06#8]).reg .r2 :=
  ⟨_, rfl, by decide⟩

/-- DataMemoryReachedOnlyByLdAndSt, second and third clause: a step of `XOR`; another memory with the same byte loaded. -/
theorem witness_other_memory : decodesTo (loaded [0xE1#8]) (.xor .r0 .r1) ∧ (∃ t, step (loaded [0xE1#8]) = .next t) ∧
    Memory.read [(0x10, 0x5A#8)] ((loaded []).reg .r1).toNat = (loaded []).mem.read ((loaded []).reg .r1).toNat :=
  ⟨⟨[], by decide⟩, ⟨_, rfl⟩, by decide⟩

/-- DataMemoryReachedOnlyByLdAndSt, first clause: the highest address. -/
theorem witness_memory_change : (loaded [0x12#8]).mem.wf ∧ ∃ t, step (loaded [0x12#8]) = .next t ∧
    t.mem.read 0xFF ≠ (loaded [0x12#8]).mem.read 0xFF := ⟨by decide, _, rfl, by decide⟩

/-- StepKeepsImage, RunContinuesWhereItPaused. -/
theorem witness_run : (loaded [0x60#8, 0xCF#8]).run = .fetch ∧ (∃ t, step (loaded [0x60#8, 0xCF#8]) = .next t) ∧ ∃ t, runFor 1 (loaded [0x60#8, 0xCF#8]) = .next t :=
  ⟨rfl, ⟨_, rfl⟩, _, rfl⟩

/-- RunEndsInOneState: `Run(NONE)` of a loaded core, and the limited run that answers the same. -/
theorem witness_run_answers : (∃ p, HostCore.runAnswers { cfg := Config.default, state := some (loaded [0xCF#8]) } none p ∧
    p.2 = .ran .halted) ∧
    ∃ p, HostCore.runAnswers { cfg := Config.default, state := some (loaded [0xCF#8]) } (some 1) p :=
  ⟨⟨_, ⟨_, ⟨1, rfl, .inl rfl⟩, rfl⟩, rfl⟩, _, rfl⟩

/-- ImageIsTheSourcesInstructions: the forward label of L1-8 and the instructions it denotes there, the target 3; and an
item that stands for an instruction, its label the highest offset a second byte holds. -/
theorem witness_source : sourceDenotes AluCodes.default (sourceLines "JMP fwd\nCLF\nMARK fwd\nEND") [.jmp 3#8, .clf, .end_] ∧
    (Item.jmpTo ['t']).standsFor (List.replicate 255 (.instr .clf) ++ [.mark ['t']]) (.jmp 255#8) := by
  refine ⟨⟨[some (.jmpTo "fwd".toList), some (.instr .clf), some (.mark "fwd".toList), some (.instr .end_)], by decide,
    by decide, rfl, ?_⟩, ⟨255, ⟨List.replicate 255 (.instr .clf), [], by decide +kernel, by decide +kernel⟩, by decide, by decide⟩⟩
  rintro p hp
  simp only [Item.markName?, List.filterMap, List.filter, Option.isNone, List.zip, List.zipWith, id, List.mem_cons,
    List.not_mem_nil, or_false] at hp
  rcases hp with rfl | rfl | rfl
  · exact ⟨3, ⟨[.jmpTo "fwd".toList, .instr .clf], [.instr .end_], rfl, rfl⟩, by decide, rfl⟩
  · rfl
  · rfl

/-- AssembledImageDisassembles: a source that assembles. -/
theorem witness_assembled : AluCodes.default.wf ∧ asm "MARK a\nJMP a" = .inl [0x40#8, 0#8] := by decide

/-- MarkBindsFollowingOffset: items before the `MARK`, another `MARK` among them. -/
theorem witness_mark : ∀ p ∈ [(1, Item.mark ['b']), (2, Item.jmpTo ['a'])], p.2 ≠ .mark ['a'] := by decide

/-- LineErrorsAreReported: a line of `CMP` in lower case. -/
theorem witness_line_error : parseLine AluCodes.default "cmp r0 r1".toList = .error .disabledOpcode ∧
    ',' ∉ stripComment "cmp r0 r1".toList ∧
    tokens (stripComment "cmp r0 r1".toList) = ["cmp".toList, "r0".toList, "r1".toList] ∧
    "cmp".toList.map upperChar = ['C', 'M', 'P'] := by decide

/-- LineErrorsAreReported, last clause: a comma outside a comment. -/
theorem witness_comma : ',' ∈ stripComment "CMP R0, R1 // x".toList := by decide

/-- ObservationShowsTheState. -/
theorem witness_observation : (loaded [0x1B#8]).Inv ∧ (loaded [0x1B#8]).observe = (loaded [0x1B#8]).observe :=
  ⟨witness_invariant, rfl⟩

/-- BlankLinesChangeNothing: a blank line and a comment line. -/
theorem witness_blank_line : parseLine AluCodes.default " \t".toList = .ok none ∧
    parseLine AluCodes.default "  // note, with a comma".toList = .ok none := by decide

end Sys2Proof.Tests
end

section
/-! SUPPORT. What the fetch half reads and what the decoder reads are one thing; which register and which `pc` an
instruction leaves; and the state a `Load` enters. -/

namespace Sys2Proof.Machine

/-- The image bytes from `pc` on are what `Fetch` reads there (R101). -/
theorem State.fetchByte_add_eq_getElem?_drop (s : State) (n : Nat) :
    s.fetchByte (s.pc + n) = (s.img.drop s.pc)[n]? :=
  List.getElem?_drop.symm

/-- The fetch half answers an instruction exactly where the decoder reads it at `pc` (R99, R101, R103). -/
theorem fetchInstr_eq_instr_iff_decodesTo {s : State} {i : Instr} : s.fetchInstr = .instr i ↔ decodesTo s i := by
  have h0 := s.fetchByte_add_eq_getElem?_drop 0
  have h1 := s.fetchByte_add_eq_getElem?_drop 1
  rw [Nat.add_zero] at h0
  unfold State.fetchInstr decodesTo
  rw [h0, h1]
  cases s.img.drop s.pc with
  | nil => simp [decode]
  | cons b0 rest =>
    cases ho : decodeOpcode s.cfg.aluCodes b0 with
    | invalid => simp [decode, ho]
    | complete j => simp [decode, ho]
    | pending p => cases rest <;> simp [decode, ho]

/-- The instructions a first byte decoded as `o` starts: one, or one for each operand byte (R69, R72). -/
def opcodeStarts (o : Opcode) (i : Instr) : Prop :=
  match o with
  | .invalid => False
  | .complete j => i = j
  | .pending p => ∃ x, i = p.complete x

/-- A fetched instruction is one its first byte starts (R99, R101). -/
theorem opcodeStarts_of_fetchInstr {s : State} {i : Instr} (h : s.fetchInstr = .instr i) :
    ∃ b, s.img[s.pc]? = some b ∧ opcodeStarts (decodeOpcode s.cfg.aluCodes b) i := by
  unfold State.fetchInstr at h
  cases hb : s.fetchByte s.pc with
  | none => simp [hb] at h
  | some b =>
    refine ⟨b, hb, ?_⟩
    cases ho : decodeOpcode s.cfg.aluCodes b with
    | invalid => simp [hb, ho] at h
    | complete j => simpa [hb, ho, opcodeStarts] using h.symm
    | pending p =>
      cases hx : s.fetchByte (s.pc + 1) with
      | none => simp [hb, ho, hx] at h
      | some x => exact ⟨x, by simpa [hb, ho, hx] using h.symm⟩

/-- The register an instruction writes when it completes: `RB` of an ALU instruction, `LD` or `DATA` (R19). -/
def writtenReg : Instr → Option Reg
  | .ld _ rb => some rb
  | .data rb _ => some rb
  | i => i.asAlu.map fun a => a.2.2

theorem writtenReg_of_asAlu {i : Instr} {o : AluOp} {ra rb : Reg} (h : i.asAlu = some (o, ra, rb)) :
    writtenReg i = some rb := by
  cases i <;> cases h <;> rfl

theorem writtenReg_eq_some_iff {i : Instr} {r : Reg} :
    writtenReg i = some r ↔
      (∃ o ra, i.asAlu = some (o, ra, r)) ∨ (∃ ra, i = .ld ra r) ∨ ∃ x, i = .data r x := by
  cases i <;> simp [writtenReg, Instr.asAlu]

/-- The rows of R72 with bit 7 = 0 write no register but the one of bits 1:0. -/
theorem fieldBB_of_decodeLow {b : Byte} {i : Instr} {r : Reg} (hi : opcodeStarts (decodeLow b) i)
    (hr : writtenReg i = some r) : fieldBB b = r := by
  unfold decodeLow at hi
  split at hi
  · cases hi; exact Option.some.inj hr
  · cases hi; cases hr
  · split at hi
    · obtain ⟨x, rfl⟩ := hi; exact Option.some.inj hr
    · cases hi
  · split at hi
    · cases hi; cases hr
    · cases hi
  · split at hi
    · obtain ⟨x, rfl⟩ := hi; cases hr
    · cases hi
  · obtain ⟨x, rfl⟩ := hi; cases hr
  · split at hi
    · cases hi; cases hr
    · cases hi
  · cases hi

/-- The ALU class writes no register but the one of bits 1:0. -/
theorem fieldBB_of_decodeAlu {k : AluCodes} {b : Byte} {r : Reg} (hr : writtenReg (decodeAlu k b) = some r) :
    fieldBB b = r := by
  unfold decodeAlu at hr
  split at hr
  · rw [writtenReg_of_asAlu (Instr.asAlu_alu ..)] at hr
    exact Option.some.inj hr
  · cases hr

/-- No instruction writes a register but the one bits 1:0 of its first byte name (R19). -/
theorem fieldBB_of_decodeOpcode {k : AluCodes} {b : Byte} {i : Instr} {r : Reg}
    (hi : opcodeStarts (decodeOpcode k b) i) (hr : writtenReg i = some r) : fieldBB b = r := by
  unfold decodeOpcode at hi
  split at hi
  · cases hi; cases hr
  · split at hi
    · cases hi; exact fieldBB_of_decodeAlu hr
    · exact fieldBB_of_decodeLow hi hr

/-- An ALU instruction executes as its operation does (R120). -/
theorem exec_of_asAlu {i : Instr} {o : AluOp} {ra rb : Reg} (h : i.asAlu = some (o, ra, rb)) (s : State) :
    exec i s = execAlu o ra rb s := by
  cases i <;> cases h <;> rfl

/-- The flags change only by an ALU instruction or `CLF` (R28). -/
theorem Effect.flags_eq_or {i : Instr} {s t : State} (h : Effect i s t) :
    t.flags = s.flags ∨ i.asAlu ≠ none ∨ i = .clf := by
  cases h with
  | alu o ra rb hi ht => exact .inr (.inl (by simp [hi]))
  | clear hi ht => exact .inr (.inr hi)
  | raise k hk ht => subst ht; exact .inl rfl
  | load rb v p hi ht hp => subst ht; exact .inl rfl
  | store ra rb hi hr ht => subst ht; exact .inl rfl
  | jump p hi hp ht => subst ht; exact .inl rfl
  | halt hi ht => subst ht; exact .inl rfl

/-- A register changes only as the one its instruction writes (R19). -/
theorem Effect.reg_eq_or {i : Instr} {s t : State} (h : Effect i s t) (r : Reg) :
    t.reg r = s.reg r ∨ writtenReg i = some r := by
  cases h with
  | alu o ra rb hi ht =>
    subst ht
    by_cases hr : r = rb
    · exact .inr (hr ▸ writtenReg_of_asAlu hi)
    · exact .inl (by simp [State.setReg_reg_other, hr])
  | load rb v p hi ht hp =>
    subst ht
    by_cases hr : r = rb
    · exact .inr (hr ▸ writtenReg_eq_some_iff.mpr (.inr hi))
    · exact .inl (by simp [State.setReg_reg_other, hr])
  | raise k hk ht => subst ht; exact .inl rfl
  | store ra rb hi hr ht => subst ht; exact .inl rfl
  | jump p hi hp ht => subst ht; exact .inl rfl
  | clear hi ht => subst ht; exact .inl rfl
  | halt hi ht => subst ht; exact .inl rfl

/-- The `pc` an instruction that completes leaves (R24). -/
def nextPc (s : State) : Instr → Nat
  | .jmpr rb => s.regTarget rb
  | .jmp x => targetOf x
  | .jif m x => if condHolds s.cfg m s.flags then targetOf x else s.pc + 2
  | i => s.pc + i.size

theorem nextPc_of_asAlu {i : Instr} {o : AluOp} {ra rb : Reg} (h : i.asAlu = some (o, ra, rb)) (s : State) :
    nextPc s i = s.pc + 1 := by
  cases i <;> cases h <;> rfl

/-- An instruction either faults and leaves `pc`, or completes at `nextPc`. -/
theorem exec_pc {i : Instr} {s t : State} (hs : s.run ≠ .faulted) (h : exec i s = .next t) :
    (t.run = .faulted ∧ t.pc = s.pc) ∨ (t.run ≠ .faulted ∧ t.pc = nextPc s i) := by
  cases exec_cases h with
  | alu o ra rb hi ht => subst ht; exact .inr ⟨hs, (nextPc_of_asAlu hi s).symm⟩
  | raise k hk ht => subst ht; exact .inl ⟨rfl, rfl⟩
  | load rb v p hi ht hp =>
    subst ht hp
    rcases hi with ⟨ra, rfl⟩ | ⟨x, rfl⟩
    · exact .inr ⟨hs, rfl⟩
    · exact .inr ⟨hs, rfl⟩
  | store ra rb hi hr ht => subst hi ht; exact .inr ⟨hs, rfl⟩
  | jump p hi hp ht =>
    rcases hi with ⟨rb, rfl⟩ | ⟨x, rfl⟩ | ⟨m, x, rfl⟩
    · injection h with h; subst h; exact .inr ⟨hs, rfl⟩
    · injection h with h; subst h; exact .inr ⟨hs, rfl⟩
    · injection h with h; subst h; exact .inr ⟨hs, rfl⟩
  | clear hi ht => subst hi ht; exact .inr ⟨hs, rfl⟩
  | halt hi ht => subst hi ht; exact .inr ⟨by simp, rfl⟩

/-- The state an accepted `Load` enters (R107, R168). -/
theorem State.eq_initial_of_load {cfg : Config} {image memInit : List Byte} {s : State}
    (h : State.load cfg image memInit = .ok s) : s = State.initial cfg image (Memory.fill [] 0 memInit) := by
  unfold State.load at h
  split_ifs at h
  cases h
  rfl

@[simp] theorem State.initial_reg (cfg : Config) (img : List Byte) (mem : Memory) (r : Reg) :
    (State.initial cfg img mem).reg r = 0#8 := by
  cases r <;> rfl

end Sys2Proof.Machine
end

section
/-! The obligations of 10_state.md. -/

namespace Sys2Proof.Machine

/-- Settles O45: only the shapes of an ALU instruction and of `CLF` touch the flags. -/
theorem flagWriters : Obligations.FlagWriters := by
  unfold Obligations.FlagWriters
  refine ⟨fun s t h hne => ?_, fun s t i hf hi h => ?_⟩
  · obtain ⟨-, rfl⟩ | ⟨-, k, -, rfl⟩ | ⟨hf, i, hi, he⟩ := step_cases h
    · exact absurd rfl hne
    · exact absurd rfl hne
    · exact ⟨i, hf, fetchInstr_eq_instr_iff_decodesTo.mp hi, (exec_cases he).flags_eq_or.resolve_left hne⟩
  · rw [step_of_instr hf (fetchInstr_eq_instr_iff_decodesTo.mpr hi)] at h
    refine ⟨?_, fun o ra rb ha => ?_⟩
    · rintro rfl
      injection h with h
      exact h ▸ rfl
    · rw [exec_of_asAlu ha] at h
      injection h with h
      exact h ▸ rfl

/-- Settles O46: the shapes that write a register name it, and it is the first byte's field `BB`. -/
theorem registerWriters : Obligations.RegisterWriters := by
  unfold Obligations.RegisterWriters
  intro s t r h hne
  obtain ⟨-, rfl⟩ | ⟨-, k, -, rfl⟩ | ⟨hf, i, hi, he⟩ := step_cases h
  · exact absurd rfl hne
  · exact absurd rfl hne
  · have hr : writtenReg i = some r := ((exec_cases he).reg_eq_or r).resolve_left hne
    obtain ⟨b, hb, hstarts⟩ := opcodeStarts_of_fetchInstr hi
    exact ⟨hf, i, fetchInstr_eq_instr_iff_decodesTo.mp hi, writtenReg_eq_some_iff.mp hr, b, hb,
      fieldBB_of_decodeOpcode hstarts hr⟩

/-- Settles O50: a step that runs an instruction faults at its `pc` or completes at `nextPc`. -/
theorem pcAfterStep : Obligations.PcAfterStep := by
  unfold Obligations.PcAfterStep
  intro s t i hf hi h
  rw [step_of_instr hf (fetchInstr_eq_instr_iff_decodesTo.mpr hi)] at h
  obtain ⟨hr, hpc⟩ | ⟨hr, hpc⟩ := exec_pc (by simp [hf]) h
  · exact ⟨fun _ => hpc, fun hn => absurd hr hn⟩
  · refine ⟨fun hn => absurd hn hr, fun _ => hpc.trans ?_⟩
    cases i <;> rfl

/-- Settles O41: a `Load` enters `State.initial`, and `State.reset` is that state for nothing loaded. -/
theorem resetRegistersPcFlags : Obligations.ResetRegistersPcFlags := by
  unfold Obligations.ResetRegistersPcFlags
  refine ⟨fun cfg image memInit s h => ?_, [], [], rfl⟩
  cases State.eq_initial_of_load h
  exact ⟨State.initial_reg _ _ _, rfl, rfl, rfl, rfl, rfl⟩

end Sys2Proof.Machine
end

section
/-! What an instruction does to the data memory, and what the data memory does to an instruction (20_memory.md). -/

namespace Sys2Proof.Machine

/-- Data memory changes only as the byte a `ST` writes in range (R41). -/
theorem Effect.mem_eq_or {i : Instr} {s t : State} (h : Effect i s t) :
    t.mem = s.mem ∨ ∃ ra rb, i = .st ra rb ∧ (s.stAddr ra rb).toNat < s.cfg.memSize ∧
      t.mem = s.mem.write (s.stAddr ra rb).toNat (s.stValue ra rb) := by
  cases h with
  | store ra rb hi hr ht => subst ht; exact .inr ⟨ra, rb, hi, hr, rfl⟩
  | alu o ra rb hi ht => subst ht; exact .inl rfl
  | raise k hk ht => subst ht; exact .inl rfl
  | load rb v p hi ht hp => subst ht; exact .inl rfl
  | jump p hi hp ht => subst ht; exact .inl rfl
  | clear hi ht => subst ht; exact .inl rfl
  | halt hi ht => subst ht; exact .inl rfl

/-- A step that changes a byte of a canonical memory fetched a `ST`, and the byte is the one at its address, in range. -/
theorem step_changes_mem_at_stAddr {s t : State} {a : Nat} (hwf : s.mem.wf) (h : step s = .next t)
    (hne : t.mem.read a ≠ s.mem.read a) :
    s.run = .fetch ∧ ∃ ra rb, s.fetchInstr = .instr (.st ra rb) ∧ a = (s.stAddr ra rb).toNat ∧ a < s.cfg.memSize := by
  obtain ⟨-, rfl⟩ | ⟨-, k, -, rfl⟩ | ⟨hf, i, hi, he⟩ := step_cases h
  · exact absurd rfl hne
  · exact absurd rfl hne
  · obtain hmem | ⟨ra, rb, rfl, hr, hmem⟩ := (exec_cases he).mem_eq_or
    · exact absurd (by rw [hmem]) hne
    · have ha : a = (s.stAddr ra rb).toNat := by
        by_contra hother
        exact hne (by rw [hmem, Memory.read_write_other _ _ hwf hother])
      exact ⟨hf, ra, rb, hi, ha, ha ▸ hr⟩

/-- The fetch half reads no data memory. -/
theorem State.fetchInstr_with_mem (s : State) (m : Memory) : { s with mem := m }.fetchInstr = s.fetchInstr := rfl

/-- An instruction that is neither `LD` nor `ST` does the same over every memory, and keeps that memory (R41). -/
theorem exec_with_mem {i : Instr} {s t : State} (m : Memory) (hld : ∀ ra rb, i ≠ .ld ra rb)
    (hst : ∀ ra rb, i ≠ .st ra rb) (h : exec i s = .next t) :
    exec i { s with mem := m } = .next { t with mem := m } := by
  cases i with
  | ld ra rb => exact absurd rfl (hld ra rb)
  | st ra rb => exact absurd rfl (hst ra rb)
  | _ => injection h with h; subst h; rfl

/-- `LD` does the same over every memory that has the same byte at its address, and keeps that memory (R41, R136). -/
theorem execLd_with_mem {s : State} {ra : Reg} (rb : Reg) {m : Memory}
    (hm : m.read (s.ldAddr ra).toNat = s.mem.read (s.ldAddr ra).toNat) :
    ∃ t, execLd ra rb s = .next t ∧ execLd ra rb { s with mem := m } = .next { t with mem := m } := by
  by_cases hr : (s.ldAddr ra).toNat < s.cfg.memSize
  · have hother : execLd ra rb { s with mem := m } =
        .next (({ s with mem := m }.setReg rb (m.read (s.ldAddr ra).toNat)).setPc (s.pc + 1)) := execLd_inRange hr
    rw [hm] at hother
    exact ⟨_, execLd_inRange hr, hother⟩
  · exact ⟨_, execLd_outOfRange hr, execLd_outOfRange (s := { s with mem := m }) hr⟩

end Sys2Proof.Machine
end

section
/-! The obligation of 20_memory.md. -/

namespace Sys2Proof.Machine

/-- Settles O47: `ST` alone writes, and only its own byte; `LD` alone reads, and only its own byte. -/
theorem dataMemoryReachedOnlyByLdAndSt : Obligations.DataMemoryReachedOnlyByLdAndSt := by
  unfold Obligations.DataMemoryReachedOnlyByLdAndSt
  refine ⟨fun s t a hwf h hne => ?_, fun s t i m hf hi hld hst h => ?_, fun s ra rb m hm => execLd_with_mem rb hm⟩
  · obtain ⟨hf, ra, rb, hi, ha⟩ := step_changes_mem_at_stAddr hwf h hne
    exact ⟨hf, ra, rb, fetchInstr_eq_instr_iff_decodesTo.mp hi, ha⟩
  · have hfetch : s.fetchInstr = .instr i := fetchInstr_eq_instr_iff_decodesTo.mpr hi
    rw [step_of_instr hf hfetch] at h
    rw [step_of_instr (s := { s with mem := m }) hf ((s.fetchInstr_with_mem m).trans hfetch)]
    exact exec_with_mem m hld hst h

end Sys2Proof.Machine
end

section
/-! What a first byte can start: the ranges of R71 and R75, read off the rows of R72. -/

namespace Sys2Proof

theorem highNibble_toNat (b : Byte) : (highNibble b).toNat = b.toNat / 16 := by
  have := b.isLt
  simp only [highNibble, BitVec.extractLsb'_toNat, Nat.shiftRight_eq_div_pow]
  omega

theorem lowNibble_eq_zero_iff (b : Byte) : lowNibble b = 0#4 ↔ b.toNat % 16 = 0 := by
  simp [lowNibble, ← BitVec.toNat_inj]

theorem bits32_eq_zero_iff (b : Byte) : b.extractLsb' 2 2 = 0#2 ↔ b.toNat / 4 % 4 = 0 := by
  simp [← BitVec.toNat_inj, Nat.shiftRight_eq_div_pow]

theorem bit7_iff (b : Byte) : b.getLsbD 7 = true ↔ 128 ≤ b.toNat := by
  rw [← BitVec.msb_eq_getLsbD_last b, BitVec.msb_eq_decide, decide_eq_true_iff]

theorem size_decodeAlu (k : AluCodes) (b : Byte) : (decodeAlu k b).size = 1 := by
  unfold decodeAlu
  cases k.op (fieldCCC b) with
  | none => rfl
  | some o => cases o <;> rfl

theorem Opcode.length_eq_one_or_two {o : Opcode} (h : o ≠ .invalid) : o.length = 1 ∨ o.length = 2 := by
  cases o with
  | invalid => exact absurd rfl h
  | complete i => exact .inl rfl
  | pending p => exact .inr rfl

theorem Pending.size_complete (p : Pending) (x : Byte) : (p.complete x).size = 2 := by
  cases p <;> rfl

end Sys2Proof

namespace Sys2Proof.Machine

/-- What a first byte can decode to, with the range it lies in and the size of what it starts (R71, R75). -/
inductive FirstByte (b : Byte) : Opcode → Prop where
  /-- No instruction starts with a byte of the ranges of R75. -/
  | invalid (hv : invalidByte b) : FirstByte b .invalid
  /-- A 1-byte instruction starts with a byte outside the ranges of R71 and R75. -/
  | complete (i : Instr) (hi : i.size = 1) (h2 : ¬twoByteFirst b) (hv : ¬invalidByte b) : FirstByte b (.complete i)
  /-- A 2-byte instruction starts with a byte of the ranges of R71. -/
  | pending (p : Pending) (h2 : twoByteFirst b) : FirstByte b (.pending p)

theorem not_invalidByte_of_twoByteFirst {b : Byte} (h : twoByteFirst b) : ¬invalidByte b := by
  unfold twoByteFirst at h
  unfold invalidByte
  omega

/-- The ranges of R74 left for the 1-byte instructions: `LD` and `ST`, `JMPR`, `CLF`, and the bytes with bit 7 set. -/
theorem FirstByte.complete_of_range {b : Byte} {i : Instr} (hi : i.size = 1)
    (h : b.toNat < 0x20 ∨ b.toNat / 4 = 0x0C ∨ b.toNat = 0x60 ∨ 0x80 ≤ b.toNat) : FirstByte b (.complete i) :=
  .complete i hi (by unfold twoByteFirst; omega) (by unfold invalidByte; omega)

/-- The rows of R72 with bit 7 = 0. -/
theorem firstByte_decodeLow {b : Byte} (h : b.toNat < 0x80) : FirstByte b (decodeLow b) := by
  unfold decodeLow
  simp only [highNibble_toNat, lowNibble_eq_zero_iff, bits32_eq_zero_iff]
  split
  · exact .complete_of_range rfl (by omega)
  · exact .complete_of_range rfl (by omega)
  · split
    · exact .pending _ (by unfold twoByteFirst; omega)
    · exact .invalid (by unfold invalidByte; omega)
  · split
    · exact .complete_of_range rfl (by omega)
    · exact .invalid (by unfold invalidByte; omega)
  · split
    · exact .pending _ (by unfold twoByteFirst; omega)
    · exact .invalid (by unfold invalidByte; omega)
  · exact .pending _ (by unfold twoByteFirst; omega)
  · split
    · exact .complete_of_range rfl (by omega)
    · exact .invalid (by unfold invalidByte; omega)
  · simp only [imp_false] at *
    exact .invalid (by unfold invalidByte; omega)

/-- The ranges and sizes hold under every `ALU_CODES`: it only says which 1-byte instruction a byte of the ALU class is. -/
theorem firstByte_decodeOpcode (k : AluCodes) (b : Byte) : FirstByte b (decodeOpcode k b) := by
  unfold decodeOpcode
  split
  next h => exact .complete_of_range rfl (by simp [h])
  next =>
    split
    next h => exact .complete_of_range (size_decodeAlu k b) (.inr (.inr (.inr ((bit7_iff b).mp h))))
    next h => exact firstByte_decodeLow (Nat.lt_of_not_le (mt (bit7_iff b).mpr h))

theorem decodeOpcode_eq_invalid_iff (k : AluCodes) (b : Byte) : decodeOpcode k b = .invalid ↔ invalidByte b := by
  have h := firstByte_decodeOpcode k b
  generalize decodeOpcode k b = o at h ⊢
  cases h with
  | invalid hv => simp [hv]
  | complete i hi h2 hv => simp [hv]
  | pending p h2 => simp [not_invalidByte_of_twoByteFirst h2]

theorem length_decodeOpcode_eq_two_iff (k : AluCodes) (b : Byte) :
    (decodeOpcode k b).length = 2 ↔ twoByteFirst b := by
  have h := firstByte_decodeOpcode k b
  generalize decodeOpcode k b = o at h ⊢
  cases h with
  | invalid hv => simpa [Opcode.length] using fun h2 => not_invalidByte_of_twoByteFirst h2 hv
  | complete i hi h2 hv => simp [Opcode.length, h2]
  | pending p h2 => simp [Opcode.length, h2]

/-- An instruction is as long as the first byte it starts with says (R71). -/
theorem size_eq_length_of_opcodeStarts {k : AluCodes} {b : Byte} {i : Instr}
    (hi : opcodeStarts (decodeOpcode k b) i) : i.size = (decodeOpcode k b).length := by
  have h := firstByte_decodeOpcode k b
  generalize decodeOpcode k b = o at h hi ⊢
  cases h with
  | invalid hv => cases hi
  | complete j hj h2 hv => cases hi; exact hj
  | pending p h2 => obtain ⟨x, rfl⟩ := hi; exact p.size_complete x

/-- The decoder answers an instruction its first byte starts, and the bytes after the length that byte fixes (R71, R72). -/
theorem opcodeStarts_of_decode {k : AluCodes} {b : Byte} {bytes rest : List Byte} {i : Instr}
    (h : decode k (b :: bytes) = .instr i rest) :
    opcodeStarts (decodeOpcode k b) i ∧ rest = (b :: bytes).drop (decodeOpcode k b).length := by
  unfold decode at h
  cases ho : decodeOpcode k b with
  | invalid => simp [ho] at h
  | complete j =>
    simp only [ho, Decoded.instr.injEq] at h
    obtain ⟨rfl, rfl⟩ := h
    exact ⟨rfl, rfl⟩
  | pending p =>
    cases bytes with
    | nil => simp [ho] at h
    | cons x bytes =>
      simp only [ho, Decoded.instr.injEq] at h
      obtain ⟨rfl, rfl⟩ := h
      exact ⟨⟨x, rfl⟩, rfl⟩

/-- A first byte that matches no opcode faults in the fetch half, which reads no byte after it (R75, R149). -/
theorem State.fetchInstr_of_invalid {s : State} {b : Byte} (hb : s.img[s.pc]? = some b)
    (hv : decodeOpcode s.cfg.aluCodes b = .invalid) : s.fetchInstr = .fault .invalidOpcode := by
  simp [State.fetchInstr, State.fetchByte, hb, hv]

/-- `raise` leaves what R151 says, and nothing else. -/
theorem State.faultedAs_raise (s : State) (k : FaultKind) : faultedAs k s (s.raise k) :=
  ⟨rfl, rfl, rfl, rfl, rfl, rfl, rfl, rfl, rfl⟩

end Sys2Proof.Machine
end

section
/-! The obligations of 30_encoding.md on the first byte. -/

namespace Sys2Proof.Machine

/-- Settles O3: the four ranges are what the rows of R72 leave out, and the fetch half faults on them before it reads on. -/
theorem illegalFirstBytesFault : Obligations.IllegalFirstBytesFault := by
  unfold Obligations.IllegalFirstBytesFault
  refine ⟨decodeOpcode_eq_invalid_iff, by decide +kernel, fun s b hf hb hv => ⟨s.raise .invalidOpcode, ?_, ?_⟩⟩
  · exact step_of_fault hf (State.fetchInstr_of_invalid hb ((decodeOpcode_eq_invalid_iff _ b).mpr hv))
  · exact s.faultedAs_raise .invalidOpcode

/-- Settles O4: the first byte fixes the length, and the decoder takes the instruction it starts. -/
theorem firstByteFixesLength : Obligations.FirstByteFixesLength := by
  unfold Obligations.FirstByteFixesLength
  refine fun k b => ⟨length_decodeOpcode_eq_two_iff k b, fun ⟨h2, hv⟩ => ?_, fun bytes rest i h => ?_⟩
  · exact (Opcode.length_eq_one_or_two hv).resolve_right (mt (length_decodeOpcode_eq_two_iff k b).mp h2)
  · obtain ⟨hi, hrest⟩ := opcodeStarts_of_decode h
    have hsize := size_eq_length_of_opcodeStarts hi
    exact ⟨hsize, hsize ▸ hrest⟩

end Sys2Proof.Machine
end

section
/-! What a fetch reads beyond the image, and what no instruction changes (40_fetch_execute.md). -/

namespace Sys2Proof.Machine

/-- The image has no byte at an offset from `L` on (R100). -/
theorem State.fetchByte_eq_none_iff {s : State} {p : Nat} : s.fetchByte p = none ↔ s.img.length ≤ p :=
  List.getElem?_eq_none_iff

/-- Without a first byte the fetch half faults before it decodes anything (R100, R153). -/
theorem State.fetchInstr_of_beyond {s : State} (h : s.img.length ≤ s.pc) :
    s.fetchInstr = .fault .addressOutOfRange := by
  simp only [State.fetchInstr, State.fetchByte_eq_none_iff.mpr h]

/-- No shape of effect touches the image or the parameters (R115). -/
theorem Effect.img_cfg {i : Instr} {s t : State} (h : Effect i s t) : t.img = s.img ∧ t.cfg = s.cfg := by
  cases h with
  | alu o ra rb hi ht => subst ht; exact ⟨rfl, rfl⟩
  | raise k hk ht => subst ht; exact ⟨rfl, rfl⟩
  | load rb v p hi ht hp => subst ht; exact ⟨rfl, rfl⟩
  | store ra rb hi hr ht => subst ht; exact ⟨rfl, rfl⟩
  | jump p hi hp ht => subst ht; exact ⟨rfl, rfl⟩
  | clear hi ht => subst ht; exact ⟨rfl, rfl⟩
  | halt hi ht => subst ht; exact ⟨rfl, rfl⟩

/-- No step changes the image or the parameters: not in a terminal state, not by a fault, not by an instruction (R115). -/
theorem step_img_cfg {s t : State} (h : step s = .next t) : t.img = s.img ∧ t.cfg = s.cfg := by
  obtain ⟨-, rfl⟩ | ⟨-, k, -, rfl⟩ | ⟨-, i, -, he⟩ := step_cases h
  · exact ⟨rfl, rfl⟩
  · exact ⟨rfl, rfl⟩
  · exact (exec_cases he).img_cfg

end Sys2Proof.Machine
end

section
/-! The obligations of 40_fetch_execute.md on the image. -/

namespace Sys2Proof.Machine

/-- Settles O48: the length is that of the image, which no step changes. -/
theorem stepKeepsImage : Obligations.StepKeepsImage := by
  unfold Obligations.StepKeepsImage
  intro s t h
  obtain ⟨himg, hcfg⟩ := step_img_cfg h
  exact ⟨himg, congrArg List.length himg, hcfg⟩

/-- Settles O35: the fetch half finds no first byte, and the step takes its fault. -/
theorem fetchBeyondImageFaults : Obligations.FetchBeyondImageFaults := by
  unfold Obligations.FetchBeyondImageFaults
  intro s hf hpc
  exact ⟨s.raise .addressOutOfRange, step_of_fault hf (State.fetchInstr_of_beyond hpc), s.faultedAs_raise _⟩

end Sys2Proof.Machine
end

section
/-! How the bytes `1 CCC AA BB` decode (30_encoding.md R61, R70, R72), and what every ALU instruction leaves (R120). -/

namespace Sys2Proof

/-- Bit 7 selects the ALU class, but for the byte of `END` (R72, R73). -/
theorem decodeOpcode_of_bit7 (k : AluCodes) {b : Byte} (h7 : b.getLsbD 7 = true) (hend : b ≠ 0xCF#8) :
    decodeOpcode k b = .complete (decodeAlu k b) := by
  unfold decodeOpcode
  rw [if_neg hend, if_pos h7]

/-- A byte of the ALU class names its operation by its field `CCC` (R61, R70). -/
theorem decodeOpcode_of_op {k : AluCodes} {b : Byte} {o : AluOp} (h7 : b.getLsbD 7 = true) (hend : b ≠ 0xCF#8)
    (hop : k.op (fieldCCC b) = some o) : decodeOpcode k b = .complete (.alu o (fieldAA b) (fieldBB b)) := by
  rw [decodeOpcode_of_bit7 k h7 hend]
  simp only [decodeAlu, hop]

/-- Code 111 is `CMP` under every `ALU_CODES`, and the byte of `END` has another code (R70, R76). -/
theorem decodeOpcode_of_fieldCCC_seven (k : AluCodes) {b : Byte} (h7 : b.getLsbD 7 = true)
    (hccc : fieldCCC b = 7#3) : decodeOpcode k b = .complete (.cmp (fieldAA b) (fieldBB b)) := by
  have hend : b ≠ 0xCF#8 := by rintro rfl; exact absurd hccc (by decide)
  have hop : k.op (fieldCCC b) = none := by rw [hccc]; rfl
  rw [decodeOpcode_of_bit7 k h7 hend]
  simp only [decodeAlu, hop]

theorem decode_of_complete {k : AluCodes} {b : Byte} {i : Instr} (h : decodeOpcode k b = .complete i)
    (rest : List Byte) : decode k (b :: rest) = .instr i rest := by
  simp only [decode, h]

theorem decode_aluByte {k : AluCodes} {c : BitVec 3} {o : AluOp} (hop : k.op c = some o) {ra rb : Reg}
    (hend : ¬(c = 4#3 ∧ ra = .r3 ∧ rb = .r3)) (rest : List Byte) :
    decode k (aluByte c ra rb :: rest) = .instr (.alu o ra rb) rest := by
  refine decode_of_complete ?_ rest
  simpa using decodeOpcode_of_op (aluByte_bit7 c ra rb) (mt (aluByte_eq_endByte c ra rb).mp hend) (by simpa using hop)

theorem decode_aluByte_seven (k : AluCodes) (ra rb : Reg) (rest : List Byte) :
    decode k (aluByte 7#3 ra rb :: rest) = .instr (.cmp ra rb) rest := by
  refine decode_of_complete ?_ rest
  simpa using decodeOpcode_of_fieldCCC_seven k (aluByte_bit7 7#3 ra rb) (fieldCCC_aluByte 7#3 ra rb)

theorem fieldCCC_toNat (b : Byte) : (fieldCCC b).toNat = b.toNat / 16 % 8 := by
  simp [fieldCCC, Nat.shiftRight_eq_div_pow]

/-- The bytes 0xF0 to 0xFF have bit 7 set and code 111 (R76). -/
theorem decodeOpcode_of_disabled (k : AluCodes) {b : Byte} (h : 0xF0 ≤ b.toNat) :
    decodeOpcode k b = .complete (.cmp (fieldAA b) (fieldBB b)) := by
  have hccc : fieldCCC b = 7#3 := BitVec.eq_of_toNat_eq (by rw [fieldCCC_toNat, BitVec.toNat_ofNat]; omega)
  exact decodeOpcode_of_fieldCCC_seven k ((bit7_iff b).mpr (by omega)) hccc

end Sys2Proof

namespace Sys2Proof.Machine

/-- The rows of R74 from 0x80 on are the bytes `1 CCC AA BB`: one row of 16 for each code. -/
theorem opByte_eq_aluByte (c : BitVec 3) (ra rb : Reg) : opByte (0x80 + 16 * c.toNat) ra rb = aluByte c ra rb := by
  revert c; cases ra <;> cases rb <;> decide

/-- The 16 bytes of the row of code `c` decode to its operation, but for the byte of `END`. -/
theorem decode_opByte {k : AluCodes} {c : BitVec 3} {o : AluOp} (hop : k.op c = some o) {ra rb : Reg}
    (hend : ¬(c = 4#3 ∧ ra = .r3 ∧ rb = .r3)) :
    decode k [opByte (0x80 + 16 * c.toNat) ra rb] = .instr (.alu o ra rb) [] := by
  rw [opByte_eq_aluByte, decode_aluByte hop hend]

theorem State.fetchInstr_of_complete {s : State} {b : Byte} {i : Instr} (hb : s.img[s.pc]? = some b)
    (hi : decodeOpcode s.cfg.aluCodes b = .complete i) : s.fetchInstr = .instr i := by
  simp [State.fetchInstr, State.fetchByte, hb, hi]

/-- An ALU instruction puts the ALU's result in `rb` and its four flags in `F`, and beside them does what every ALU
instruction does (R118, R120). -/
theorem exec_alu {i : Instr} {o : AluOp} {ra rb : Reg} (h : i.asAlu = some (o, ra, rb)) (s : State) :
    ∃ t, exec i s = .next t ∧ t.reg rb = aluResult s.cfg s.flags.c o (s.reg ra) (s.reg rb) ∧
      t.flags = aluFlags s.cfg s.flags.c o (s.reg ra) (s.reg rb) ∧ aluCommon ra rb s t := by
  refine ⟨_, exec_of_asAlu h s, by simp, rfl, rfl, rfl, ?_, rfl, fun r hr => ?_, fun _ => rfl, rfl, rfl, rfl, rfl⟩
  · simp [aluFlags, ← BitVec.toNat_inj]
  · simp [State.setReg_reg_other, hr]

end Sys2Proof.Machine
end

section
/-! The obligations of 41_alu.md on `ADD`, the logical operations and `CMP`. -/

namespace Sys2Proof.Machine

/-- Settles O9: the ALU's sum is modulo 256, and its carry is what the sum drops. -/
theorem addResult : Obligations.AddResult := by
  unfold Obligations.AddResult
  intro ra rb s
  obtain ⟨t, ht, hr, hf, hcommon⟩ := exec_alu (i := .add ra rb) rfl s
  refine ⟨decode_opByte (c := 0#3) rfl (by simp), t, ht, ?_, by rw [hf]; rfl, hcommon⟩
  rw [hr]
  exact BitVec.toNat_add ..

/-- Settles O13: the ALU's result is the bitwise and, and code 100 on R3, R3 is the byte of `END`. -/
theorem andResult : Obligations.AndResult := by
  unfold Obligations.AndResult
  intro ra rb s
  obtain ⟨t, ht, hr, hf, hcommon⟩ := exec_alu (i := .and ra rb) rfl s
  refine ⟨fun hend => decode_opByte (c := 4#3) rfl (fun h => hend h.2), rfl, t, ht, fun j _ => ?_,
    by rw [hf]; rfl, hcommon⟩
  rw [hr]
  exact BitVec.getLsbD_and

/-- Settles O14: the ALU's result is the bitwise or. -/
theorem orResult : Obligations.OrResult := by
  unfold Obligations.OrResult
  intro ra rb s
  obtain ⟨t, ht, hr, hf, hcommon⟩ := exec_alu (i := .or ra rb) rfl s
  refine ⟨decode_opByte (c := 5#3) rfl (by simp), t, ht, fun j _ => ?_, by rw [hf]; rfl, hcommon⟩
  rw [hr]
  exact BitVec.getLsbD_or

/-- Settles O15: the ALU's result is the bitwise exclusive or, which is 0 exactly for equal operands. -/
theorem xorResult : Obligations.XorResult := by
  unfold Obligations.XorResult
  intro ra rb s
  obtain ⟨t, ht, hr, hf, hcommon⟩ := exec_alu (i := .xor ra rb) rfl s
  refine ⟨decode_opByte (c := 6#3) rfl (by simp), t, ht, fun j _ => ?_, by rw [hf]; rfl, ?_, hcommon⟩
  · rw [hr]
    exact BitVec.getLsbD_xor
  · rw [hf]
    simp [aluFlags, aluResult]

/-- Settles O16: `CMP` only raises, and a byte from 0xF0 on is fetched as `CMP` without a byte after it. -/
theorem cmpTakesDisabledFault : Obligations.CmpTakesDisabledFault := by
  unfold Obligations.CmpTakesDisabledFault
  refine ⟨fun ra rb s => ⟨_, rfl, s.faultedAs_raise _⟩, fun ra rb => ?_, fun s b hrun hb hge => ?_⟩
  · exact (opByte_eq_aluByte 7#3 ra rb).symm ▸ decode_aluByte_seven _ ra rb []
  · have hfetch := State.fetchInstr_of_complete hb (decodeOpcode_of_disabled s.cfg.aluCodes hge)
    exact ⟨_, step_of_instr hrun hfetch, s.faultedAs_raise _⟩

end Sys2Proof.Machine
end

section
/-! How the first bytes of `LD` and `DATA` decode (30_encoding.md R72), what a missing operand byte does to a step
(40_fetch_execute.md R103), and what the two instructions leave (42_memory_data.md R136, R138). -/

namespace Sys2Proof

/-- A first byte that waits for an operand byte takes the byte after it, whatever its value (R69, R72). -/
theorem decode_of_pending {k : AluCodes} {b : Byte} {p : Pending} (h : decodeOpcode k b = .pending p)
    (x : Byte) (rest : List Byte) : decode k (b :: x :: rest) = .instr (p.complete x) rest := by
  simp only [decode, h]

end Sys2Proof

namespace Sys2Proof.Machine

/-- The bytes 0x00 to 0x0F are `LD` under every `ALU_CODES`: bit 7 is 0, and the high nibble selects the row (R72). -/
theorem decodeOpcode_opByte_ld (k : AluCodes) (ra rb : Reg) :
    decodeOpcode k (opByte 0x00 ra rb) = .complete (.ld ra rb) := by
  cases ra <;> cases rb <;> rfl

/-- The bytes 0x20 to 0x23 start `DATA` under every `ALU_CODES` (R72). -/
theorem decodeOpcode_opByte_data (k : AluCodes) (rb : Reg) :
    decodeOpcode k (opByte 0x20 .r0 rb) = .pending (.data rb) := by
  cases rb <;> rfl

/-- Where the image ends after the first byte of a 2-byte instruction, the fetch half faults (R103). -/
theorem State.fetchInstr_of_missing_operand {s : State} {b : Byte} {p : Pending} (hb : s.img[s.pc]? = some b)
    (hp : decodeOpcode s.cfg.aluCodes b = .pending p) (hlast : s.img.length = s.pc + 1) :
    s.fetchInstr = .fault .addressOutOfRange := by
  have hfirst : s.fetchByte s.pc = some b := hb
  have hoperand : s.fetchByte (s.pc + 1) = none := State.fetchByte_eq_none_iff.mpr hlast.le
  simp only [State.fetchInstr, hfirst, hp, hoperand]

/-- A byte that starts a 2-byte instruction under every `ALU_CODES` faults without its operand byte (R103). -/
theorem faultsWithoutOperand_of_pending {b : Byte} (h : ∀ k : AluCodes, ∃ p, decodeOpcode k b = .pending p) :
    faultsWithoutOperand b := by
  intro s hrun hb hlast
  obtain ⟨p, hp⟩ := h s.cfg.aluCodes
  exact ⟨_, step_of_fault hrun (State.fetchInstr_of_missing_operand hb hp hlast), s.faultedAs_raise _⟩

/-- A register write and a new `pc`, the effect of `LD` in range and of `DATA`, leave the rest of the state as it was. -/
theorem frame_of_eq_setReg_setPc {s t : State} {rb : Reg} {v : Byte} {p : Nat} (ht : t = (s.setReg rb v).setPc p) :
    t.reg rb = v ∧ t.pc = p ∧ t.flags = s.flags ∧ sameRegsBut rb s t ∧ sameMem s t ∧ sameControl s t := by
  subst ht
  exact ⟨s.setReg_reg_same rb v, rfl, rfl, fun _ hr => s.setReg_reg_other v hr, fun _ => rfl, rfl, rfl, rfl, rfl⟩

end Sys2Proof.Machine
end

section
/-! The obligations of 42_memory_data.md on `LD` and `DATA`. -/

namespace Sys2Proof.Machine

/-- Settles O20: in range `LD` writes the byte read and `pc`; out of range it only raises. -/
theorem ldResult : Obligations.LdResult := by
  unfold Obligations.LdResult
  refine fun ra rb s => ⟨decode_of_complete (decodeOpcode_opByte_ld _ ra rb) [], fun hin => ?_, fun hout => ?_⟩
  · exact ⟨_, execLd_inRange hin, frame_of_eq_setReg_setPc rfl⟩
  · exact ⟨_, execLd_outOfRange hout.not_gt, s.faultedAs_raise _⟩

/-- Settles O22: `DATA` writes its operand byte and `pc`, and a step that finds no operand byte faults in the fetch half. -/
theorem dataResult : Obligations.DataResult := by
  unfold Obligations.DataResult
  intro rb x s
  refine ⟨decode_of_pending (decodeOpcode_opByte_data _ rb) x [], ?_, ?_⟩
  · exact faultsWithoutOperand_of_pending fun k => ⟨_, decodeOpcode_opByte_data k rb⟩
  · exact ⟨_, rfl, frame_of_eq_setReg_setPc rfl⟩

end Sys2Proof.Machine
end

section
/-! How the bytes of `JMPR`, `JMP` and `CLF` decode (30_encoding.md R72), what a jump leaves (43_control.md R140, R141,
R147), and when a `JIF` is taken over cleared flags (R143, R144). -/

namespace Sys2Proof.Machine

/-- The bytes 0x30 to 0x33 are `JMPR` under every `ALU_CODES` (R72). -/
theorem decodeOpcode_opByte_jmpr (k : AluCodes) (rb : Reg) :
    decodeOpcode k (opByte 0x30 .r0 rb) = .complete (.jmpr rb) := by
  cases rb <;> rfl

theorem decodeOpcode_jmp (k : AluCodes) : decodeOpcode k 0x40#8 = .pending .jmp := rfl

theorem decodeOpcode_clf (k : AluCodes) : decodeOpcode k 0x60#8 = .complete .clf := rfl

/-- A new `pc` alone, the effect of every jump, leaves the rest of the state as it was; beyond the image it faults at the
next fetch (R147). -/
theorem frame_of_eq_setPc {s t : State} {p : Nat} (ht : t = s.setPc p) :
    t.pc = p ∧ t.flags = s.flags ∧ sameRegs s t ∧ sameMem s t ∧ sameControl s t ∧ faultsBeyondImage t := by
  have hbeyond : faultsBeyondImage t := fetchBeyondImageFaults t
  subst ht
  exact ⟨rfl, rfl, fun _ => rfl, fun _ => rfl, ⟨rfl, rfl, rfl, rfl⟩, hbeyond⟩

/-- A mask that selects no flag is taken as `EMPTY_MASK_TAKEN` says, whatever the flags (R143, D10). -/
theorem condHolds_zero (cfg : Config) (f : Flags) : condHolds cfg 0#4 f = cfg.emptyMaskTaken := rfl

/-- Over cleared flags a mask that holds selects no flag: each of its four bits is false. -/
theorem condHolds_cleared_of_ne_zero (cfg : Config) {m : BitVec 4} (hm : m ≠ 0#4) :
    condHolds cfg m Flags.cleared = false := by
  rw [← Bool.not_eq_true]
  intro h
  refine hm ?_
  simp only [condHolds, if_neg hm, Flags.cleared, Bool.or_false, Bool.and_eq_true, Bool.not_eq_true'] at h
  obtain ⟨⟨⟨h3, h2⟩, h1⟩, h0⟩ := h
  exact BitVec.eq_of_getLsbD_eq fun j hj => by interval_cases j <;> simpa

/-- Over cleared flags a `JIF` falls through unless its mask is empty, and is then taken where `EMPTY_MASK_TAKEN` says so
(R142, R143). -/
theorem exec_jif_of_flags_cleared {t : State} (hf : t.flags = Flags.cleared) (m : BitVec 4) (x : Byte) :
    ∃ u, exec (.jif m x) t = .next u ∧ (m ≠ 0#4 → u.pc = t.pc + 2) ∧
      (m = 0#4 → t.cfg.emptyMaskTaken = true → u.pc = x.toNat) := by
  refine ⟨t.setPc (if condHolds t.cfg m t.flags then targetOf x else t.pc + 2), rfl, fun hm => ?_, fun hm htaken => ?_⟩
  · simp [hf, condHolds_cleared_of_ne_zero t.cfg hm]
  · simp [hm, condHolds_zero, htaken, targetOf]

end Sys2Proof.Machine
end

section
/-! The obligations of 43_control.md on `JMPR`, `JMP` and `CLF`. -/

namespace Sys2Proof.Machine

/-- Settles O25: `JMPR` writes `pc` alone, with the value of its register. -/
theorem jmprResult : Obligations.JmprResult := by
  unfold Obligations.JmprResult
  exact fun rb s => ⟨decode_of_complete (decodeOpcode_opByte_jmpr _ rb) [], _, rfl, frame_of_eq_setPc rfl⟩

/-- Settles O26: `JMP` writes `pc` alone, with its operand byte, and a step that finds no operand byte faults in the fetch
half. -/
theorem jmpResult : Obligations.JmpResult := by
  unfold Obligations.JmpResult
  intro x s
  refine ⟨decode_of_pending (decodeOpcode_jmp _) x [], ?_, ?_⟩
  · exact faultsWithoutOperand_of_pending fun k => ⟨_, decodeOpcode_jmp k⟩
  · exact ⟨_, rfl, frame_of_eq_setPc rfl⟩

/-- Settles O28: `CLF` writes the flags and `pc` alone, and a `JIF` after it meets cleared flags. -/
theorem clfResult : Obligations.ClfResult := by
  unfold Obligations.ClfResult
  intro s
  refine ⟨decode_of_complete (decodeOpcode_clf _) [], (s.setFlags Flags.cleared).setPc (s.pc + 1), rfl,
    rfl, rfl, rfl, rfl, rfl, fun _ => rfl, fun _ => rfl, ⟨rfl, rfl, rfl, rfl⟩, ?_⟩
  exact exec_jif_of_flags_cleared rfl

end Sys2Proof.Machine
end

section
/-! The encoder and the decoder undo each other (30_encoding.md sections 3, 4): the bytes of every instruction decode to
it, and every byte that decodes is the byte of what it decodes to. -/

namespace Sys2Proof

theorem encode_alu (k : AluCodes) (o : AluOp) (ra rb : Reg) :
    encode k (.alu o ra rb) = [aluByte (k.code o) ra rb] := by
  cases o <;> rfl

theorem Instr.wf_of_asAlu_eq_none (k : AluCodes) {i : Instr} (h : i.asAlu = none) : i.wf k := by
  simp [Instr.wf, h]

/-- A byte with bit 7 clear is read by the rows of R72 that no `ALU_CODES` touches. -/
theorem decodeOpcode_of_bit7_clear (k : AluCodes) {b : Byte} (h7 : b.getLsbD 7 = false) :
    decodeOpcode k b = decodeLow b := by
  have hend : b ≠ 0xCF#8 := by rintro rfl; exact absurd h7 (by decide)
  unfold decodeOpcode
  rw [if_neg hend, h7]
  rfl

theorem decodeOpcode_ld (k : AluCodes) (ra rb : Reg) :
    decodeOpcode k (0x0#4 ++ ra.bits ++ rb.bits) = .complete (.ld ra rb) := by
  cases ra <;> cases rb <;> rfl

theorem decodeOpcode_st (k : AluCodes) (ra rb : Reg) :
    decodeOpcode k (0x1#4 ++ ra.bits ++ rb.bits) = .complete (.st ra rb) := by
  cases ra <;> cases rb <;> rfl

theorem decodeOpcode_data (k : AluCodes) (rb : Reg) : decodeOpcode k (0x08#6 ++ rb.bits) = .pending (.data rb) := by
  cases rb <;> rfl

theorem decodeOpcode_jmpr (k : AluCodes) (rb : Reg) : decodeOpcode k (0x0C#6 ++ rb.bits) = .complete (.jmpr rb) := by
  cases rb <;> rfl

theorem decodeOpcode_jif (k : AluCodes) (m : BitVec 4) : decodeOpcode k (0x5#4 ++ m) = .pending (.jif m) := by
  have h7 : ∀ m : BitVec 4, (0x5#4 ++ m).getLsbD 7 = false := by decide
  have hrow : ∀ m : BitVec 4, decodeLow (0x5#4 ++ m) = .pending (.jif m) := by decide
  rw [decodeOpcode_of_bit7_clear k (h7 m), hrow m]

/-- The byte of a well-formed ALU instruction is not that of `END`, so its code names its operation (R70, R73). -/
theorem decode_encode_alu {k : AluCodes} (hk : k.wf) {o : AluOp} {ra rb : Reg} (hi : (Instr.alu o ra rb).wf k)
    (rest : List Byte) : decode k (encode k (.alu o ra rb) ++ rest) = .instr (.alu o ra rb) rest := by
  have hop := k.op_code hk o
  have hend : ¬(k.code o = 4#3 ∧ ra = .r3 ∧ rb = .r3) := by
    rintro ⟨hc, rfl, rfl⟩
    rw [hc] at hop
    cases hop
    exact hi (Instr.asAlu_alu ..)
  rw [encode_alu]
  exact decode_aluByte hop hend rest

/-- Decoding the encoding of an instruction of any row gives the instruction back. -/
theorem decode_encode {k : AluCodes} {i : Instr} (hk : k.wf) (hi : i.wf k) (rest : List Byte) :
    decode k (encode k i ++ rest) = .instr i rest := by
  cases i with
  | end_ => rfl
  | cmp ra rb => exact decode_aluByte_seven k ra rb rest
  | ld ra rb => exact decode_of_complete (decodeOpcode_ld k ra rb) rest
  | st ra rb => exact decode_of_complete (decodeOpcode_st k ra rb) rest
  | data rb x => exact decode_of_pending (decodeOpcode_data k rb) x rest
  | jmpr rb => exact decode_of_complete (decodeOpcode_jmpr k rb) rest
  | jmp t => rfl
  | jif m t => exact decode_of_pending (decodeOpcode_jif k m) t rest
  | clf => rfl
  | add ra rb => exact decode_encode_alu (o := .add) hk hi rest
  | shr ra rb => exact decode_encode_alu (o := .shr) hk hi rest
  | shl ra rb => exact decode_encode_alu (o := .shl) hk hi rest
  | not ra rb => exact decode_encode_alu (o := .not) hk hi rest
  | and ra rb => exact decode_encode_alu (o := .and) hk hi rest
  | or ra rb => exact decode_encode_alu (o := .or) hk hi rest
  | xor ra rb => exact decode_encode_alu (o := .xor) hk hi rest

/-- A byte is its high nibble and its two register fields (R68, R72). -/
theorem highNibble_append_fields (b : Byte) : highNibble b ++ (fieldAA b).bits ++ (fieldBB b).bits = b := by
  simp only [highNibble, fieldAA, fieldBB, Reg.bits_ofBits]
  rw [BitVec.extractLsb'_append_extractLsb'_eq_extractLsb' (show 4 = 2 + 2 from rfl),
    BitVec.extractLsb'_append_extractLsb'_eq_extractLsb' (show 2 = 0 + 2 from rfl)]
  exact BitVec.extractLsb'_eq_self

theorem highNibble_append_lowNibble (b : Byte) : highNibble b ++ lowNibble b = b :=
  (BitVec.extractLsb'_append_extractLsb'_eq_extractLsb' rfl).trans BitVec.extractLsb'_eq_self

/-- The high nibble of a byte of the ALU class is its bit 7 and its code (R61). -/
theorem highNibble_of_bit7 {b : Byte} (h7 : b.getLsbD 7 = true) : highNibble b = 1#1 ++ fieldCCC b := by
  have hbit : b.extractLsb' 7 1 = 1#1 :=
    BitVec.eq_of_getLsbD_eq fun j hj => by simp [h7, Nat.lt_one_iff.mp hj]
  rw [← hbit]
  exact (BitVec.extractLsb'_append_extractLsb'_eq_extractLsb' (show 7 = 4 + 3 from rfl)).symm

/-- A byte with bit 7 set is the byte of the ALU class with its own fields (R61). -/
theorem aluByte_fields {b : Byte} (h7 : b.getLsbD 7 = true) :
    aluByte (fieldCCC b) (fieldAA b) (fieldBB b) = b := by
  have hb := highNibble_append_fields b
  rwa [highNibble_of_bit7 h7] at hb

theorem fieldAA_bits (b : Byte) : (fieldAA b).bits = b.extractLsb' 2 2 := Reg.bits_ofBits _

theorem highNibble_eq_of_toNat {b : Byte} {n : Nat} (h : (highNibble b).toNat = n) : highNibble b = BitVec.ofNat 4 n := by
  rw [← h, BitVec.ofNat_toNat, BitVec.setWidth_eq]

/-- The codes of R70 that name an operation, and 111. -/
theorem code_cases : ∀ c : BitVec 3,
    c = 0#3 ∨ c = 1#3 ∨ c = 2#3 ∨ c = 3#3 ∨ c = 4#3 ∨ c = 5#3 ∨ c = 6#3 ∨ c = 7#3 := by
  decide

/-- No code but 111 fails to name an operation (R70). -/
theorem AluCodes.op_eq_none_iff (k : AluCodes) (c : BitVec 3) : k.op c = none ↔ c = 7#3 := by
  rcases code_cases c with rfl | rfl | rfl | rfl | rfl | rfl | rfl | rfl <;> simp [AluCodes.op]

/-- What `b` starts, read as `o`, is well formed and encodes with `b` as its first byte. -/
def encodesTo (k : AluCodes) (b : Byte) : Opcode → Prop
  | .invalid => True
  | .complete i => i.wf k ∧ encode k i = [b]
  | .pending p => ∀ x, (p.complete x).wf k ∧ encode k (p.complete x) = [b, x]

/-- The rows of R72 with bit 7 = 0 are the rows of R60: the high nibble, then the fields. -/
theorem encodesTo_decodeLow (k : AluCodes) (b : Byte) : encodesTo k b (decodeLow b) := by
  have hfields := highNibble_append_fields b
  have hnibbles := highNibble_append_lowNibble b
  have hAA := fieldAA_bits b
  unfold decodeLow
  split
  next h => exact ⟨Instr.wf_of_asAlu_eq_none k rfl, by simpa [encode, highNibble_eq_of_toNat h] using hfields⟩
  next h => exact ⟨Instr.wf_of_asAlu_eq_none k rfl, by simpa [encode, highNibble_eq_of_toNat h] using hfields⟩
  next h =>
    split
    next h0 =>
      rw [highNibble_eq_of_toNat h, hAA, h0] at hfields
      exact fun x => ⟨Instr.wf_of_asAlu_eq_none k rfl, congrArg (fun c => [c, x]) hfields⟩
    next => trivial
  next h =>
    split
    next h0 =>
      rw [highNibble_eq_of_toNat h, hAA, h0] at hfields
      exact ⟨Instr.wf_of_asAlu_eq_none k rfl, congrArg (fun c => [c]) hfields⟩
    next => trivial
  next h =>
    split
    next h0 =>
      rw [highNibble_eq_of_toNat h, h0] at hnibbles
      exact fun x => ⟨Instr.wf_of_asAlu_eq_none k rfl, congrArg (fun c => [c, x]) hnibbles⟩
    next => trivial
  next h =>
    rw [highNibble_eq_of_toNat h] at hnibbles
    exact fun x => ⟨Instr.wf_of_asAlu_eq_none k rfl, congrArg (fun c => [c, x]) hnibbles⟩
  next h =>
    split
    next h0 =>
      rw [highNibble_eq_of_toNat h, h0] at hnibbles
      exact ⟨Instr.wf_of_asAlu_eq_none k rfl, congrArg (fun c => [c]) hnibbles⟩
    next => trivial
  next => trivial

/-- A byte of the ALU class but `END` is its operation's: its code is the operation's code, and it is not the byte that
the instruction without an encoding would have (R70, R73, R76). -/
theorem encodesTo_decodeAlu {k : AluCodes} (hk : k.wf) {b : Byte} (h7 : b.getLsbD 7 = true) (hend : b ≠ 0xCF#8) :
    encodesTo k b (.complete (decodeAlu k b)) := by
  have hb := aluByte_fields h7
  unfold decodeAlu
  cases hop : k.op (fieldCCC b) with
  | none =>
    rw [(k.op_eq_none_iff _).mp hop] at hb
    exact ⟨Instr.wf_of_asAlu_eq_none k rfl, congrArg (fun c => [c]) hb⟩
  | some o =>
    have hcode := k.code_op hk _ _ hop
    refine ⟨fun hbad => hend ?_, by rw [encode_alu, hcode, hb]⟩
    rw [Instr.asAlu_alu, Option.some.injEq, Prod.mk.injEq, Prod.mk.injEq] at hbad
    obtain ⟨rfl, hra, hrb⟩ := hbad
    have hccc : fieldCCC b = 4#3 := hcode ▸ k.code_op hk 4#3 _ rfl
    exact hb ▸ (aluByte_eq_endByte _ _ _).mpr ⟨hccc, hra, hrb⟩

/-- Every first byte is the first byte of the encoding of what it starts. -/
theorem encodesTo_decodeOpcode {k : AluCodes} (hk : k.wf) (b : Byte) : encodesTo k b (decodeOpcode k b) := by
  by_cases hend : b = 0xCF#8
  · subst hend
    exact ⟨Instr.wf_of_asAlu_eq_none k rfl, rfl⟩
  · cases h7 : b.getLsbD 7 with
    | true => rw [decodeOpcode_of_bit7 k h7 hend]; exact encodesTo_decodeAlu hk h7 hend
    | false => rw [decodeOpcode_of_bit7_clear k h7]; exact encodesTo_decodeLow k b

/-- Where the decoder answers an instruction, the bytes are a complete first byte, or one that waits for its operand byte
and that byte (R72, R103). -/
theorem decode_eq_instr_cases {k : AluCodes} {bytes rest : List Byte} {i : Instr} (h : decode k bytes = .instr i rest) :
    (∃ b, decodeOpcode k b = .complete i ∧ bytes = b :: rest) ∨
      ∃ b p x, decodeOpcode k b = .pending p ∧ i = p.complete x ∧ bytes = b :: x :: rest := by
  cases bytes with
  | nil => cases h
  | cons b tail =>
    cases ho : decodeOpcode k b with
    | invalid => simp [decode, ho] at h
    | complete j =>
      rw [decode_of_complete ho] at h
      cases h
      exact .inl ⟨b, ho, rfl⟩
    | pending p =>
      cases tail with
      | nil => simp [decode, ho] at h
      | cons x tail =>
        rw [decode_of_pending ho] at h
        cases h
        exact .inr ⟨b, p, x, ho, rfl, rfl⟩

/-- Bytes that decode are the encoding of a well-formed instruction, and what follows it. -/
theorem encode_of_decode {k : AluCodes} {bytes rest : List Byte} {i : Instr} (hk : k.wf)
    (h : decode k bytes = .instr i rest) : i.wf k ∧ encode k i ++ rest = bytes := by
  obtain ⟨b, ho, rfl⟩ | ⟨b, p, x, ho, rfl, rfl⟩ := decode_eq_instr_cases h
  · have hb := encodesTo_decodeOpcode hk b
    rw [ho] at hb
    obtain ⟨hwf, henc⟩ := hb
    exact ⟨hwf, by rw [henc]; rfl⟩
  · have hb := encodesTo_decodeOpcode hk b
    rw [ho] at hb
    obtain ⟨hwf, henc⟩ := hb x
    exact ⟨hwf, by rw [henc]; rfl⟩

/-- Disassembly takes the decoder's instruction from the front and goes on with the rest. -/
theorem disassemble_of_decode {k : AluCodes} {bytes rest : List Byte} {i : Instr} (h : decode k bytes = .instr i rest) :
    disassemble k bytes = (disassemble k rest).map (fun is => i :: is) := by
  obtain ⟨b, ho, rfl⟩ | ⟨b, p, x, ho, rfl, rfl⟩ := decode_eq_instr_cases h
  · simp only [disassemble, ho]
  · simp only [disassemble, ho]

theorem disassemble_flatMap_encode {k : AluCodes} (hk : k.wf) {is : List Instr} (hwf : ∀ i ∈ is, i.wf k) :
    disassemble k (is.flatMap (encode k)) = some is := by
  induction is with
  | nil => rfl
  | cons i is ih =>
    obtain ⟨hi, his⟩ := List.forall_mem_cons.mp hwf
    rw [List.flatMap_cons, disassemble_of_decode (decode_encode hk hi _), ih his]
    rfl

theorem decode_endByte (k : AluCodes) (bytes : List Byte) : decode k (0xCF#8 :: bytes) = .instr .end_ bytes := rfl

end Sys2Proof
end

section
/-! The obligations of 30_encoding.md on the encoder, the decoder and the disassembler. -/

namespace Sys2Proof.Machine

/-- Settles O6: row by row, the bytes of the encoding table decode to their instruction. -/
theorem decodeOfEncode : Obligations.DecodeOfEncode := by
  unfold Obligations.DecodeOfEncode
  exact fun k i rest hk hi => decode_encode hk hi rest

/-- Settles O7: a first byte that decodes is the encoder's byte of what it decodes to. -/
theorem encodeOfDecode : Obligations.EncodeOfDecode := by
  unfold Obligations.EncodeOfDecode
  exact fun k bytes rest i hk h => encode_of_decode hk h

/-- Settles O8, by induction on the instructions: each one's encoding decodes to it, whatever follows. -/
theorem disassemblyInvertsEncoding : Obligations.DisassemblyInvertsEncoding := by
  unfold Obligations.DisassemblyInvertsEncoding
  refine ⟨fun k is hk hwf => disassemble_flatMap_encode hk hwf, fun k bytes is h => ?_⟩
  rw [disassemble_of_decode (decode_endByte k bytes), h]
  rfl

/-- Settles O5: 0xCF is read before the ALU class, and what decodes is well formed. -/
theorem endByteIsEnd : Obligations.EndByteIsEnd := by
  unfold Obligations.EndByteIsEnd
  exact fun k hk => ⟨decode_endByte k, fun bytes rest i h => (encode_of_decode hk h).1, rfl⟩

end Sys2Proof.Machine
end

section
/-! Which instruction each range of first bytes starts (30_encoding.md R72, R74), under every `ALU_CODES`. -/

namespace Sys2Proof.Machine

theorem fieldAA_eq_ofNat (b : Byte) : fieldAA b = Reg.ofBits (BitVec.ofNat 2 (b.toNat / 4 % 4)) := by
  refine congrArg Reg.ofBits (BitVec.eq_of_toNat_eq ?_)
  simp [Nat.shiftRight_eq_div_pow]

theorem fieldBB_eq_ofNat (b : Byte) : fieldBB b = Reg.ofBits (BitVec.ofNat 2 (b.toNat % 4)) := by
  refine congrArg Reg.ofBits (BitVec.eq_of_toNat_eq ?_)
  simp

theorem lowNibble_eq_ofNat (b : Byte) : lowNibble b = BitVec.ofNat 4 (b.toNat % 16) :=
  BitVec.eq_of_toNat_eq (by simp [lowNibble])

theorem decodeOpcode_of_lt_0x80 (k : AluCodes) {b : Byte} (h : b.toNat < 0x80) : decodeOpcode k b = decodeLow b :=
  decodeOpcode_of_bit7_clear k (Bool.not_eq_true _ ▸ mt (bit7_iff b).mp (Nat.not_le.mpr h))

theorem decodeOpcode_of_ld_range (k : AluCodes) {b : Byte} (h : b.toNat ≤ 0x0F) :
    decodeOpcode k b = .complete (.ld (fieldAA b) (fieldBB b)) := by
  have hrow : b.toNat / 16 = 0 := by omega
  rw [decodeOpcode_of_lt_0x80 k (by omega)]
  simp only [decodeLow, highNibble_toNat, hrow]

theorem decodeOpcode_of_st_range (k : AluCodes) {b : Byte} (h : 0x10 ≤ b.toNat ∧ b.toNat ≤ 0x1F) :
    decodeOpcode k b = .complete (.st (fieldAA b) (fieldBB b)) := by
  have hrow : b.toNat / 16 = 1 := by omega
  rw [decodeOpcode_of_lt_0x80 k (by omega)]
  simp only [decodeLow, highNibble_toNat, hrow]

theorem decodeOpcode_of_data_range (k : AluCodes) {b : Byte} (h : 0x20 ≤ b.toNat ∧ b.toNat ≤ 0x23) :
    decodeOpcode k b = .pending (.data (fieldBB b)) := by
  have hrow : b.toNat / 16 = 2 := by omega
  have hAA : b.toNat / 4 % 4 = 0 := by omega
  rw [decodeOpcode_of_lt_0x80 k (by omega)]
  simp only [decodeLow, highNibble_toNat, hrow, bits32_eq_zero_iff, hAA, if_true]

theorem decodeOpcode_of_jmpr_range (k : AluCodes) {b : Byte} (h : 0x30 ≤ b.toNat ∧ b.toNat ≤ 0x33) :
    decodeOpcode k b = .complete (.jmpr (fieldBB b)) := by
  have hrow : b.toNat / 16 = 3 := by omega
  have hAA : b.toNat / 4 % 4 = 0 := by omega
  rw [decodeOpcode_of_lt_0x80 k (by omega)]
  simp only [decodeLow, highNibble_toNat, hrow, bits32_eq_zero_iff, hAA, if_true]

theorem decodeOpcode_of_jif_range (k : AluCodes) {b : Byte} (h : 0x50 ≤ b.toNat ∧ b.toNat ≤ 0x5F) :
    decodeOpcode k b = .pending (.jif (lowNibble b)) := by
  have hrow : b.toNat / 16 = 5 := by omega
  rw [decodeOpcode_of_lt_0x80 k (by omega)]
  simp only [decodeLow, highNibble_toNat, hrow]

/-- The 16 bytes from 0x80 on for each code `CCC` start the operation of that code, but for the byte of `END`. -/
theorem decodeOpcode_of_alu_range {k : AluCodes} {b : Byte} {o : AluOp} (c : BitVec 3) (hop : k.op c = some o)
    (hrow : b.toNat / 16 = 8 + c.toNat) (hend : b.toNat ≠ 0xCF) :
    decodeOpcode k b = .complete (.alu o (fieldAA b) (fieldBB b)) := by
  have hccc : fieldCCC b = c := BitVec.eq_of_toNat_eq (by rw [fieldCCC_toNat, hrow]; have := c.isLt; omega)
  exact decodeOpcode_of_op ((bit7_iff b).mpr (by omega)) (mt (congrArg BitVec.toNat) hend) (hccc ▸ hop)

end Sys2Proof.Machine
end

section
/-! The obligations of 30_encoding.md on the opcode map. -/

namespace Sys2Proof.Machine

/-- Settles O1: each word is in its instruction's row, and the fields are those of the table. -/
theorem specBytesDecode : Obligations.SpecBytesDecode := by
  unfold Obligations.SpecBytesDecode
  exact ⟨rfl, rfl, rfl, rfl, rfl, rfl, rfl, rfl, rfl, rfl, rfl, rfl, rfl, rfl, rfl, rfl⟩

/-- Settles O2, range by range. -/
theorem opcodeMapByRange : Obligations.OpcodeMapByRange := by
  unfold Obligations.OpcodeMapByRange
  intro b n ra rb
  have hlt : n < 256 := b.isLt
  have hra : ra = fieldAA b := (fieldAA_eq_ofNat b).symm
  have hrb : rb = fieldBB b := (fieldBB_eq_ofNat b).symm
  rw [hra, hrb]
  refine ⟨decodeOpcode_of_ld_range _, decodeOpcode_of_st_range _, decodeOpcode_of_data_range _,
    decodeOpcode_of_jmpr_range _, fun h => ?jmp, fun h => ?jif, fun h => ?clf, fun h => ?add, fun h => ?shr, fun h => ?shl,
    fun h => ?not, fun h => ?and, fun h => ?end_, fun h => ?or, fun h => ?xor, decodeOpcode_of_disabled _,
    (decodeOpcode_eq_invalid_iff _ b).mpr⟩
  case jmp => rw [show b = 0x40#8 from BitVec.eq_of_toNat_eq h]; rfl
  case jif => rw [decodeOpcode_of_jif_range _ h, lowNibble_eq_ofNat]
  case clf => rw [show b = 0x60#8 from BitVec.eq_of_toNat_eq h]; rfl
  case add => exact decodeOpcode_of_alu_range 0#3 rfl (show n / 16 = 8 by omega) (show n ≠ 0xCF by omega)
  case shr => exact decodeOpcode_of_alu_range 1#3 rfl (show n / 16 = 9 by omega) (show n ≠ 0xCF by omega)
  case shl => exact decodeOpcode_of_alu_range 2#3 rfl (show n / 16 = 10 by omega) (show n ≠ 0xCF by omega)
  case not => exact decodeOpcode_of_alu_range 3#3 rfl (show n / 16 = 11 by omega) (show n ≠ 0xCF by omega)
  case and => exact decodeOpcode_of_alu_range 4#3 rfl (show n / 16 = 12 by omega) (show n ≠ 0xCF by omega)
  case end_ => rw [show b = 0xCF#8 from BitVec.eq_of_toNat_eq h]; rfl
  case or => exact decodeOpcode_of_alu_range 5#3 rfl (show n / 16 = 13 by omega) (show n ≠ 0xCF by omega)
  case xor => exact decodeOpcode_of_alu_range 6#3 rfl (show n / 16 = 14 by omega) (show n ≠ 0xCF by omega)

end Sys2Proof.Machine
end

section
/-! Where an instruction leaves the run state and the fault record, and what keeps the invariant of a loaded core
(10_state.md, 60_exceptions.md). -/

namespace Sys2Proof.Machine

/-- An instruction keeps the run state and the fault record, or it raises, or it is `END` and halts (R145, R151). -/
theorem Effect.run_cases {i : Instr} {s t : State} (h : Effect i s t) :
    (t.run = s.run ∧ t.fault = s.fault) ∨ (∃ k, k ≠ .none ∧ t = s.raise k) ∨
      (i = .end_ ∧ t.run = .halted ∧ t.fault = s.fault) := by
  cases h with
  | raise k hk ht => exact .inr (.inl ⟨k, hk, ht⟩)
  | halt hi ht => subst ht; exact .inr (.inr ⟨hi, rfl, rfl⟩)
  | alu _ _ _ _ ht | load _ _ _ _ ht | store _ _ _ _ ht | jump _ _ _ ht | clear _ ht =>
    subst ht
    exact .inl ⟨rfl, rfl⟩

/-- A step changes nothing in a terminal state; from FETCH it raises, or fetches an instruction that goes on in FETCH, or
fetches `END` and halts (R99, R105, R106). -/
theorem step_run_cases {s t : State} (h : step s = .next t) :
    ((s.run = .halted ∨ s.run = .faulted) ∧ t = s) ∨
    (s.run = .fetch ∧ ∃ k, k ≠ .none ∧ t = s.raise k) ∨
    (s.run = .fetch ∧ t.run = .fetch ∧ t.fault = s.fault) ∨
    (s.run = .fetch ∧ s.fetchInstr = .instr .end_ ∧ t.run = .halted ∧ t.fault = s.fault) := by
  obtain hterm | ⟨hf, k, hk, ht⟩ | ⟨hf, i, hi, he⟩ := step_cases h
  · exact .inl hterm
  · exact .inr (.inl ⟨hf, k, State.fetchInstr_fault_kind hk, ht⟩)
  · obtain ⟨hrun, hfault⟩ | hraise | ⟨rfl, hrun, hfault⟩ := (exec_cases he).run_cases
    · exact .inr (.inr (.inl ⟨hf, hrun.trans hf, hfault⟩))
    · exact .inr (.inl ⟨hf, hraise⟩)
    · exact .inr (.inr (.inr ⟨hf, hi, hrun, hfault⟩))

/-- When an instruction raises: `CMP` always, `LD` and `ST` where their address is out of range (R133, R150). -/
def raises (s : State) : Instr → Prop
  | .cmp _ _ => True
  | .ld ra _ => s.cfg.memSize ≤ (s.ldAddr ra).toNat
  | .st ra rb => s.cfg.memSize ≤ (s.stAddr ra rb).toNat
  | _ => False

theorem exec_faulted_iff {s : State} (hs : s.run = .fetch) (i : Instr) :
    (∃ t, exec i s = .next t ∧ t.run = .faulted) ↔ raises s i := by
  cases i with
  | cmp ra rb => exact iff_of_true ⟨_, rfl, rfl⟩ trivial
  | ld ra rb =>
    by_cases hr : (s.ldAddr ra).toNat < s.cfg.memSize
    · simp [exec, execLd_inRange hr, raises, hs, hr]
    · simp [exec, execLd_outOfRange hr, raises, Nat.le_of_not_lt hr]
  | st ra rb =>
    by_cases hr : (s.stAddr ra rb).toNat < s.cfg.memSize
    · simp [exec, execSt_inRange hr, raises, hs, hr]
    · simp [exec, execSt_outOfRange hr, raises, Nat.le_of_not_lt hr]
  | end_ => simp [exec, execEnd, raises]
  | _ =>
    refine iff_of_false (fun ⟨t, ht, hrun⟩ => ?_) id
    injection ht with ht
    subst ht
    cases hs.symm.trans hrun

/-- A step from FETCH ends in FAULTED exactly if its fetch half faults or its instruction raises. -/
theorem step_faulted_iff {s : State} (hs : s.run = .fetch) :
    (∃ t, step s = .next t ∧ t.run = .faulted) ↔
      (∃ k, s.fetchInstr = .fault k) ∨ ∃ i, s.fetchInstr = .instr i ∧ raises s i := by
  cases hi : s.fetchInstr with
  | fault k => simp [step_of_fault hs hi]
  | instr i => simp [step_of_instr hs hi, exec_faulted_iff hs]

theorem not_raises_alu (s : State) (o : AluOp) (ra rb : Reg) : ¬raises s (.alu o ra rb) := by
  cases o <;> exact id

/-- The rows of R72 with bit 7 = 0: `LD`, `ST`, and above them only instructions that never raise. -/
theorem decodeLow_complete_cases {b : Byte} {i : Instr} (h : decodeLow b = .complete i) :
    (b.toNat ≤ 0x0F ∧ i = .ld (fieldAA b) (fieldBB b)) ∨
    (0x10 ≤ b.toNat ∧ b.toNat ≤ 0x1F ∧ i = .st (fieldAA b) (fieldBB b)) ∨
    (0x20 ≤ b.toNat ∧ ∀ s, ¬raises s i) := by
  unfold decodeLow at h
  simp only [highNibble_toNat] at h
  split at h
  next hrow => cases h; exact .inl ⟨by omega, rfl⟩
  next hrow => cases h; exact .inr (.inl ⟨by omega, by omega, rfl⟩)
  next => split at h <;> cases h
  next hrow =>
    split at h
    · cases h; exact .inr (.inr ⟨by omega, fun _ => id⟩)
    · cases h
  next => split at h <;> cases h
  next => cases h
  next hrow =>
    split at h
    · cases h; exact .inr (.inr ⟨by omega, fun _ => id⟩)
    · cases h
  next => cases h

/-- A first byte that is an instruction of its own: `LD`, `ST` and `CMP` in their ranges, and in the ranges between
them an instruction that never raises (R74). -/
theorem decodeOpcode_complete_cases {k : AluCodes} {b : Byte} {i : Instr} (h : decodeOpcode k b = .complete i) :
    (b.toNat ≤ 0x0F ∧ i = .ld (fieldAA b) (fieldBB b)) ∨
    (0x10 ≤ b.toNat ∧ b.toNat ≤ 0x1F ∧ i = .st (fieldAA b) (fieldBB b)) ∨
    (0xF0 ≤ b.toNat ∧ i = .cmp (fieldAA b) (fieldBB b)) ∨
    (0x20 ≤ b.toNat ∧ b.toNat < 0xF0 ∧ ∀ s, ¬raises s i) := by
  by_cases hlow : b.toNat < 0x80
  · rw [decodeOpcode_of_lt_0x80 k hlow] at h
    obtain hld | hst | ⟨hge, hi⟩ := decodeLow_complete_cases h
    · exact .inl hld
    · exact .inr (.inl hst)
    · exact .inr (.inr (.inr ⟨hge, by omega, hi⟩))
  · by_cases hcmp : 0xF0 ≤ b.toNat
    · rw [decodeOpcode_of_disabled k hcmp] at h
      cases h
      exact .inr (.inr (.inl ⟨hcmp, rfl⟩))
    · refine .inr (.inr (.inr ⟨by omega, by omega, ?_⟩))
      by_cases hend : b = 0xCF#8
      · subst hend; cases h; exact fun _ => id
      · have hccc : fieldCCC b ≠ 7#3 := mt (congrArg BitVec.toNat) (by rw [fieldCCC_toNat, BitVec.toNat_ofNat]; omega)
        obtain ⟨o, ho⟩ := Option.ne_none_iff_exists'.mp (mt (k.op_eq_none_iff _).mp hccc)
        rw [decodeOpcode_of_op ((bit7_iff b).mpr (by omega)) hend ho] at h
        cases h
        exact fun s => not_raises_alu s o _ _

/-- When the instruction of a complete first byte raises, said of the byte (R74, R150). -/
theorem raises_iff_of_complete {s : State} {b : Byte} {i : Instr} (h : decodeOpcode s.cfg.aluCodes b = .complete i) :
    raises s i ↔ 0xF0 ≤ b.toNat ∨ (b.toNat ≤ 0x0F ∧ s.cfg.memSize ≤ (s.reg (fieldAA b)).toNat) ∨
      (0x10 ≤ b.toNat ∧ b.toNat ≤ 0x1F ∧ s.cfg.memSize ≤ (s.stAddr (fieldAA b) (fieldBB b)).toNat) := by
  obtain ⟨hle, rfl⟩ | ⟨hge, hle, rfl⟩ | ⟨hge, rfl⟩ | ⟨hge, hlt, hno⟩ := decodeOpcode_complete_cases h
  · show s.cfg.memSize ≤ (s.reg (fieldAA b)).toNat ↔ _
    omega
  · show s.cfg.memSize ≤ (s.stAddr (fieldAA b) (fieldBB b)).toNat ↔ _
    omega
  · exact iff_of_true trivial (.inl hge)
  · exact iff_of_false (hno s) (by omega)

theorem State.fetchInstr_of_pending {s : State} {b x : Byte} {p : Pending} (hb : s.img[s.pc]? = some b)
    (hp : decodeOpcode s.cfg.aluCodes b = .pending p) (hx : s.img[s.pc + 1]? = some x) :
    s.fetchInstr = .instr (p.complete x) := by
  simp [State.fetchInstr, State.fetchByte, hb, hp, hx]

/-- A pending instruction with its operand byte never raises. -/
theorem not_raises_complete (s : State) (p : Pending) (x : Byte) : ¬raises s (p.complete x) := by
  cases p <;> exact id

/-- A fetched instruction lies inside the image with all its bytes (R100, R103). -/
theorem State.pc_add_size_le_of_fetchInstr {s : State} {i : Instr} (h : s.fetchInstr = .instr i) :
    s.pc + i.size ≤ s.img.length := by
  obtain ⟨rest, hdec⟩ := fetchInstr_eq_instr_iff_decodesTo.mp h
  obtain ⟨b, ho, hbytes⟩ | ⟨b, p, x, ho, rfl, hbytes⟩ := decode_eq_instr_cases hdec
  · have hsize : i.size = 1 := by
      rw [size_eq_length_of_opcodeStarts (k := s.cfg.aluCodes) (b := b) (by rw [ho]; rfl), ho]
      rfl
    have hlen := congrArg List.length hbytes
    rw [List.length_drop, List.length_cons] at hlen
    omega
  · have hsize := p.size_complete x
    have hlen := congrArg List.length hbytes
    rw [List.length_drop, List.length_cons, List.length_cons] at hlen
    omega

/-- No instruction leaves `pc` beyond 256 if its own bytes end there (R22, R24). -/
theorem Effect.pc_le {i : Instr} {s t : State} (h : Effect i s t) (hpc : s.pc + i.size ≤ 256) : t.pc ≤ 256 := by
  cases h with
  | alu o ra rb hi ht =>
    have hsize : i.size = 1 := by cases i <;> cases hi <;> rfl
    rw [hsize] at hpc
    exact ht ▸ hpc
  | raise k hk ht => exact ht ▸ (Nat.le_add_right ..).trans hpc
  | load rb v p hi ht hp => exact ht ▸ hp ▸ hpc
  | store ra rb hi hr ht => subst hi ht; exact hpc
  | jump p hi hp ht =>
    subst ht
    rcases hp with hp | rfl
    · exact hp.le
    · exact hpc
  | clear hi ht => subst hi ht; exact hpc
  | halt hi ht => subst hi ht; exact hpc

/-- A and E are never both true after an instruction if they were not before: an ALU instruction sets A for greater and E
for equal operands (R118, R142). -/
theorem Effect.flags_exclude {i : Instr} {s t : State} (h : Effect i s t)
    (hs : ¬(s.flags.a = true ∧ s.flags.e = true)) : ¬(t.flags.a = true ∧ t.flags.e = true) := by
  cases h with
  | alu o ra rb hi ht =>
    subst ht
    rintro ⟨ha, he⟩
    have hlt : (s.reg rb).toNat < (s.reg ra).toNat := of_decide_eq_true ha
    have heq : s.reg ra = s.reg rb := of_decide_eq_true he
    exact hlt.ne (heq ▸ rfl)
  | clear hi ht => subst ht; exact fun hae => nomatch hae.1
  | raise _ _ ht | load _ _ _ _ ht | store _ _ _ _ ht | jump _ _ _ ht | halt _ ht => exact ht ▸ hs

/-- Data memory stays canonical and inside its bound (R42). -/
theorem Effect.mem_wf_below {i : Instr} {s t : State} (h : Effect i s t) (hwf : s.mem.wf)
    (hbelow : s.mem.below s.cfg.memSize) : t.mem.wf ∧ t.mem.below s.cfg.memSize := by
  obtain hmem | ⟨ra, rb, -, hr, hmem⟩ := h.mem_eq_or
  · exact hmem ▸ ⟨hwf, hbelow⟩
  · exact hmem ▸ ⟨Memory.wf_write _ _ _ hwf, Memory.below_write _ hbelow hr⟩

/-- A fault taken in FETCH keeps the invariant: it records its kind at `pc` and changes nothing else (R151). -/
theorem State.Inv.raise {s : State} (h : s.Inv) {k : FaultKind} (hk : k ≠ .none) : (s.raise k).Inv :=
  { cfgWf := h.cfgWf, memWf := h.memWf, memBelow := h.memBelow, imgLe := h.imgLe, pcLe := h.pcLe
    notExecute := by simp
    faultIff := by simp [hk]
    faultPc := fun _ => rfl
    noFaultPc := fun hne => absurd rfl hne
    flagsExclude := h.flagsExclude }

/-- An instruction whose bytes lie inside the image keeps the invariant. -/
theorem Effect.inv {i : Instr} {s t : State} (e : Effect i s t) (h : s.Inv) (hf : s.run = .fetch)
    (hpc : s.pc + i.size ≤ s.img.length) : t.Inv := by
  obtain ⟨himg, hcfg⟩ := e.img_cfg
  obtain ⟨hwf, hbelow⟩ := e.mem_wf_below h.memWf h.memBelow
  have hkind : s.fault.kind = .none := not_not.mp (mt h.faultIff.mp (by simp [hf]))
  have hfpc : s.fault.pc = 0 := h.noFaultPc (by simp [hf])
  have hgoes : t.run = .fetch ∨ t.run = .halted → t.fault = s.fault → t.Inv := fun hrun hfault =>
    { cfgWf := hcfg ▸ h.cfgWf, memWf := hwf, memBelow := hcfg ▸ hbelow, imgLe := himg ▸ h.imgLe
      pcLe := e.pc_le (hpc.trans h.imgLe)
      notExecute := by rcases hrun with hr | hr <;> simp [hr]
      faultIff := by rcases hrun with hr | hr <;> simp [hr, hfault, hkind]
      faultPc := by rcases hrun with hr | hr <;> simp [hr]
      noFaultPc := fun _ => hfault ▸ hfpc
      flagsExclude := e.flags_exclude h.flagsExclude }
  obtain ⟨hrun, hfault⟩ | ⟨k, hk, rfl⟩ | ⟨-, hrun, hfault⟩ := e.run_cases
  · exact hgoes (.inl (hrun.trans hf)) hfault
  · exact h.raise hk
  · exact hgoes (.inr hrun) hfault

theorem step_of_ended {s : State} (h : s.ended) : step s = .next s := by
  rcases h with h | h <;> simp only [step, h]

/-- From a state of the invariant every step answers a next state of the invariant. -/
theorem step_inv {s : State} (h : s.Inv) : ∃ t, step s = .next t ∧ t.Inv := by
  cases hrun : s.run with
  | execute => exact absurd hrun h.notExecute
  | halted => exact ⟨s, step_of_ended (.inl hrun), h⟩
  | faulted => exact ⟨s, step_of_ended (.inr hrun), h⟩
  | fetch =>
    cases hi : s.fetchInstr with
    | fault k => exact ⟨_, step_of_fault hrun hi, h.raise (State.fetchInstr_fault_kind hi)⟩
    | instr i =>
      obtain ⟨t, ht, e⟩ := exec_effect i s
      exact ⟨t, (step_of_instr hrun hi).trans ht, e.inv h hrun (State.pc_add_size_le_of_fetchInstr hi)⟩

end Sys2Proof.Machine
end

section
/-! The obligations of 40_fetch_execute.md and 60_exceptions.md on a step, its faults and the invariant. -/

namespace Sys2Proof.Machine

/-- Settles O39: each shape of an instruction's effect keeps the invariant, and so does a fault. -/
theorem stepTotalAndKeepsInvariant : Obligations.StepTotalAndKeepsInvariant := by
  unfold Obligations.StepTotalAndKeepsInvariant
  exact fun s h => step_inv h

/-- Settles O29: `END` is the one instruction whose effect halts. -/
theorem endResult : Obligations.EndResult := by
  unfold Obligations.EndResult
  refine ⟨rfl, fun s => ⟨(s.setPc (s.pc + 1)).setRun .halted, rfl, rfl, rfl, rfl, rfl, fun _ => rfl, fun _ => rfl,
    rfl, rfl, step_of_ended (.inl rfl)⟩, fun s t hf h hhalt => ?_⟩
  obtain ⟨hterm, rfl⟩ | ⟨-, k, -, rfl⟩ | ⟨-, hrun, -⟩ | ⟨-, hi, -⟩ := step_run_cases h
  · exact absurd hf (State.ended_not_fetch hterm)
  · cases hhalt
  · cases hrun.symm.trans hhalt
  · exact fetchInstr_eq_instr_iff_decodesTo.mp hi

/-- Settles O33: what the decoder reads at `pc` is what the fetch half fetches, and the step executes it. -/
theorem stepRunsDecodedInstruction : Obligations.StepRunsDecodedInstruction := by
  unfold Obligations.StepRunsDecodedInstruction
  exact fun s i hf hi => step_of_instr hf (fetchInstr_eq_instr_iff_decodesTo.mpr hi)

/-- Settles O34: a step asks for the run state first. -/
theorem stepInTerminalStateChangesNothing : Obligations.StepInTerminalStateChangesNothing := by
  unfold Obligations.StepInTerminalStateChangesNothing
  exact fun s h => step_of_ended h

/-- Settles O36: a byte of the ranges of R71 is pending under every `ALU_CODES`. -/
theorem missingOperandByteFaults : Obligations.MissingOperandByteFaults := by
  unfold Obligations.MissingOperandByteFaults
  refine fun b h2 => faultsWithoutOperand_of_pending fun k => ?_
  have hlen := (length_decodeOpcode_eq_two_iff k b).mpr h2
  cases ho : decodeOpcode k b with
  | pending p => exact ⟨p, rfl⟩
  | invalid => rw [ho] at hlen; cases hlen
  | complete i => rw [ho] at hlen; cases hlen

/-- Settles O38: a step ends in FAULTED only by `raise`. -/
theorem faultsArePrecise : Obligations.FaultsArePrecise := by
  unfold Obligations.FaultsArePrecise
  intro s t hf h hfault
  obtain ⟨hterm, rfl⟩ | ⟨-, k, hk, rfl⟩ | ⟨-, hrun, -⟩ | ⟨-, -, hrun, -⟩ := step_run_cases h
  · exact absurd hf (State.ended_not_fetch hterm)
  · exact ⟨k, hk, s.faultedAs_raise k⟩
  · cases hrun.symm.trans hfault
  · cases hrun.symm.trans hfault

/-- Settles O49: of all a step can do, only `raise` writes the fault record. -/
theorem faultRecordWriters : Obligations.FaultRecordWriters := by
  unfold Obligations.FaultRecordWriters
  intro s t h hne
  obtain ⟨-, rfl⟩ | ⟨hf, k, -, rfl⟩ | ⟨-, -, hfault⟩ | ⟨-, -, -, hfault⟩ := step_run_cases h
  · exact absurd rfl hne
  · exact ⟨hf, rfl⟩
  · exact absurd hfault hne
  · exact absurd hfault hne

/-- Settles O37, by what the first byte at `pc` starts. -/
theorem stepFaultsExactlyWhen : Obligations.StepFaultsExactlyWhen := by
  unfold Obligations.StepFaultsExactlyWhen
  intro s hf
  rw [step_faulted_iff hf]
  cases hb : s.img[s.pc]? with
  | none =>
    have hbeyond := List.getElem?_eq_none_iff.mp hb
    exact iff_of_true (.inl ⟨_, State.fetchInstr_of_beyond hbeyond⟩) (.inl hbeyond)
  | some b =>
    have hin : ¬s.img.length ≤ s.pc := Nat.not_le.mpr (List.getElem?_eq_some_iff.mp hb).1
    simp only [hin, false_or, Option.some.injEq, exists_eq_left']
    have hfirst := firstByte_decodeOpcode s.cfg.aluCodes b
    cases ho : decodeOpcode s.cfg.aluCodes b with
    | invalid =>
      have hv := (decodeOpcode_eq_invalid_iff _ b).mp ho
      exact iff_of_true (.inl ⟨_, State.fetchInstr_of_invalid hb ho⟩) (.inl hv)
    | complete i =>
      rw [ho] at hfirst
      obtain _ | ⟨_, -, h2, hv⟩ := hfirst
      simp [State.fetchInstr_of_complete hb ho, hv, h2, raises_iff_of_complete ho]
    | pending p =>
      have h2 : twoByteFirst b := (length_decodeOpcode_eq_two_iff _ b).mp (by rw [ho]; rfl)
      cases hx : s.img[s.pc + 1]? with
      | none =>
        have hlast := List.getElem?_eq_none_iff.mp hx
        have hmissing := State.fetchInstr_of_missing_operand hb ho (by omega)
        exact iff_of_true (.inl ⟨_, hmissing⟩) (.inr (.inr (.inl ⟨h2, hlast⟩)))
      | some x =>
        have hoperand : ¬s.img.length ≤ s.pc + 1 := Nat.not_le.mpr (List.getElem?_eq_some_iff.mp hx).1
        refine iff_of_false ?_ ?_
        · simp [State.fetchInstr_of_pending hb ho hx, not_raises_complete]
        · unfold twoByteFirst at h2 ⊢
          unfold invalidByte
          omega

end Sys2Proof.Machine
end

section
/-! What a canonical memory and a filled one read as, and the state a `Load` enters (20_memory.md section 1,
70_reset_and_hazards.md section 1). -/

namespace Sys2Proof.Machine

theorem Memory.wf_nil : Memory.wf [] := ⟨.nil, nofun⟩

theorem Memory.wf_tail {c : Host.Cell} {m : Memory} (h : Memory.wf (c :: m)) : m.wf :=
  ⟨h.1.tail, fun d hd => h.2 d (List.mem_cons_of_mem _ hd)⟩

theorem Memory.read_head (c : Host.Cell) (m : Memory) : Memory.read (c :: m) c.1 = c.2 := if_pos rfl

theorem Memory.read_of_ne_head {c : Host.Cell} {a : Nat} (m : Memory) (h : a ≠ c.1) :
    Memory.read (c :: m) a = Memory.read m a := if_neg h

/-- In a canonical memory the tail lists no address up to the head's. -/
theorem Memory.read_tail_of_le {c : Host.Cell} {m : Memory} {a : Nat} (h : Memory.wf (c :: m)) (ha : a ≤ c.1) :
    Memory.read m a = Memory.unlisted a :=
  Memory.read_of_above m a fun d hd => ha.trans_lt ((List.pairwise_cons.mp h.1).1 d hd)

/-- The lowest listed address of a canonical memory is one where it differs from a memory that lists only higher ones. -/
theorem Memory.head_le_of_read_eq {c d : Host.Cell} {m m' : Memory} (h : Memory.wf (c :: m)) (h' : Memory.wf (d :: m'))
    (hread : ∀ a, Memory.read (c :: m) a = Memory.read (d :: m') a) : d.1 ≤ c.1 := by
  by_contra hlt
  have hc := hread c.1
  rw [Memory.read_head, Memory.read_of_ne_head m' (by omega), Memory.read_tail_of_le h' (by omega)] at hc
  exact h.2 c List.mem_cons_self hc

/-- A canonical memory is its readings, by its lowest listed address and then the addresses above it. -/
theorem Memory.ext_read {m m' : Memory} (h : m.wf) (h' : m'.wf) (hread : ∀ a, m.read a = m'.read a) : m = m' := by
  induction m generalizing m' with
  | nil =>
    cases m' with
    | nil => rfl
    | cons d m' => exact absurd ((Memory.read_head d m').symm.trans (hread d.1).symm) (h'.2 d List.mem_cons_self)
  | cons c m ih =>
    cases m' with
    | nil => exact absurd ((Memory.read_head c m).symm.trans (hread c.1)) (h.2 c List.mem_cons_self)
    | cons d m' =>
      have haddr : c.1 = d.1 := Nat.le_antisymm
        (Memory.head_le_of_read_eq h' h fun a => (hread a).symm) (Memory.head_le_of_read_eq h h' hread)
      have hbyte : c.2 = d.2 := by
        have hc := hread c.1
        rwa [Memory.read_head, haddr, Memory.read_head] at hc
      have htail : m = m' := ih (Memory.wf_tail h) (Memory.wf_tail h') fun a => by
        by_cases ha : a = c.1
        · rw [Memory.read_tail_of_le h ha.le, Memory.read_tail_of_le h' (haddr ▸ ha.le)]
        · have hread := hread a
          rwa [Memory.read_of_ne_head m ha, Memory.read_of_ne_head m' (haddr ▸ ha)] at hread
      rw [htail, Prod.ext haddr hbyte]

/-- From `base` on a filled memory reads as the bytes it was filled with, and everywhere else as before. -/
theorem Memory.read_fill (vs : List Byte) {m : Memory} (h : m.wf) (base a : Nat) :
    (Memory.fill m base vs).read a = if base ≤ a then vs.getD (a - base) (m.read a) else m.read a := by
  induction vs generalizing m base with
  | nil => simp [Memory.fill]
  | cons v vs ih =>
    rw [Memory.fill, ih (Memory.wf_write m base v h), Memory.read_write m base a v h]
    rcases Nat.lt_trichotomy a base with ha | rfl | ha
    · simp [Nat.not_le.mpr ha, Nat.not_le.mpr (Nat.lt_succ_of_lt ha), ha.ne]
    · simp
    · have hindex : a - base = a - (base + 1) + 1 := by omega
      rw [if_pos (Nat.succ_le_of_lt ha), if_pos ha.le, if_neg ha.ne', hindex, List.getD_cons_succ]

theorem State.load_eq_ok {cfg : Config} {image memInit : List Byte} (himg : image.length ≤ 256)
    (hmem : memInit.length ≤ cfg.memSize) :
    State.load cfg image memInit = .ok (State.initial cfg image (Memory.fill [] 0 memInit)) := by
  rw [State.load, if_neg himg.not_gt, if_neg hmem.not_gt]

theorem State.load_lengths {cfg : Config} {image memInit : List Byte} {s : State}
    (h : State.load cfg image memInit = .ok s) : image.length ≤ 256 ∧ memInit.length ≤ cfg.memSize := by
  unfold State.load at h
  split_ifs at h with himg hmem
  exact ⟨Nat.le_of_not_lt himg, Nat.le_of_not_lt hmem⟩

theorem State.load_refuses {cfg : Config} {image memInit : List Byte}
    (h : 256 < image.length ∨ cfg.memSize < memInit.length) : ∃ r, State.load cfg image memInit = .error r := by
  cases hload : State.load cfg image memInit with
  | error r => exact ⟨r, rfl⟩
  | ok s =>
    obtain ⟨himg, hmem⟩ := State.load_lengths hload
    omega

/-- A loaded core meets the invariant: `Load` checks the lengths, and filling keeps memory canonical and in bounds. -/
theorem State.load_inv {cfg : Config} {image memInit : List Byte} {s : State} (hcfg : cfg.wf)
    (h : State.load cfg image memInit = .ok s) : s.Inv := by
  obtain ⟨himg, hmem⟩ := State.load_lengths h
  cases State.eq_initial_of_load h
  exact
    { cfgWf := hcfg
      memWf := Memory.wf_fill memInit [] 0 Memory.wf_nil
      memBelow := Memory.below_fill memInit [] 0 _ nofun (by rwa [Nat.zero_add])
      imgLe := himg
      pcLe := Nat.zero_le _
      notExecute := nofun
      faultIff := iff_of_false (fun hk => hk rfl) nofun
      faultPc := nofun
      noFaultPc := fun _ => rfl
      flagsExclude := nofun }

end Sys2Proof.Machine
end

section
/-! The obligations of 20_memory.md section 1 and of 70_reset_and_hazards.md on `Load`. -/

namespace Sys2Proof.Machine

/-- Settles O24, by induction on one of the two lists. -/
theorem memoryIsItsReadings : Obligations.MemoryIsItsReadings := by
  unfold Obligations.MemoryIsItsReadings
  exact fun m m' h h' hread => Memory.ext_read h h' hread

/-- Settles O42: a `Load` enters `State.initial`, its memory filled from 0. -/
theorem loadGivesResetValues : Obligations.LoadGivesResetValues := by
  unfold Obligations.LoadGivesResetValues
  refine ⟨fun cfg image memInit himg hmem => ⟨_, State.load_eq_ok himg hmem, State.initial_reg _ _ _, rfl, rfl, rfl,
    rfl, rfl, rfl, rfl, rfl, fun a => ?_, rfl, rfl⟩, rfl⟩
  exact (Memory.read_fill memInit Memory.wf_nil 0 a).trans (if_pos (Nat.zero_le a))

/-- Settles O43. -/
theorem loadMeetsInvariant : Obligations.LoadMeetsInvariant := by
  unfold Obligations.LoadMeetsInvariant
  exact fun cfg image memInit s hcfg h => State.load_inv hcfg h

/-- Settles O40: reset is a `Load` of nothing. -/
theorem resetMeetsInvariant : Obligations.ResetMeetsInvariant := by
  unfold Obligations.ResetMeetsInvariant
  exact State.load_inv (cfg := Config.default) (image := []) (memInit := []) (by decide) rfl

end Sys2Proof.Machine
end

section
/-! What a bounded run does and keeps, what the host is answered, and what it can observe (40_fetch_execute.md
section 2). -/

namespace Sys2Proof.Machine

theorem runFor_of_not_fetch {s : State} (h : s.run ≠ .fetch) (n : Nat) : runFor n s = .next s := by
  cases n with
  | zero => rfl
  | succ n => rw [runFor, if_neg h]

theorem runFor_one_fetch {s : State} (h : s.run = .fetch) : runFor 1 s = step s := by
  rw [runFor, if_pos h]
  cases step s <;> rfl

/-- A run that answered goes on from the state it left (R109, D15). -/
theorem runFor_add {m : Nat} {s t : State} (h : runFor m s = .next t) (n : Nat) : runFor (m + n) s = runFor n t := by
  induction m generalizing s with
  | zero =>
    cases h
    rw [Nat.zero_add]
  | succ m ih =>
    by_cases hf : s.run = .fetch
    · rw [Nat.succ_add]
      cases hs : step s with
      | next u =>
        rw [runFor_succ_fetch _ hf hs] at h ⊢
        exact ih h
      | fault r => simp [runFor, hf, hs] at h
      | refused r => simp [runFor, hf, hs] at h
    · rw [runFor_of_not_fetch hf] at h
      cases h
      rw [runFor_of_not_fetch hf, runFor_of_not_fetch hf]

/-- A state that its own step keeps is kept by any number of steps. -/
theorem runFor_of_step_self {s : State} (h : step s = .next s) (n : Nat) : runFor n s = .next s := by
  induction n with
  | zero => rfl
  | succ n ih =>
    by_cases hf : s.run = .fetch
    · rw [runFor_succ_fetch n hf h, ih]
    · exact runFor_of_not_fetch hf _

/-- A bounded run from the invariant answers a state of the invariant with the same image. -/
theorem runFor_inv {s : State} (h : s.Inv) (n : Nat) : ∃ t, runFor n s = .next t ∧ t.Inv ∧ t.img = s.img := by
  induction n generalizing s with
  | zero => exact ⟨s, rfl, h, rfl⟩
  | succ n ih =>
    by_cases hf : s.run = .fetch
    · obtain ⟨u, hu, hinv⟩ := step_inv h
      obtain ⟨t, ht, htinv, himg⟩ := ih hinv
      exact ⟨t, (runFor_succ_fetch n hf hu).trans ht, htinv, himg.trans (step_img_cfg hu).1⟩
    · exact ⟨s, runFor_of_not_fetch hf _, h, rfl⟩

/-- Once a run has ended, longer limits answer the same state. -/
theorem runFor_of_le_of_ended {m n : Nat} {s t : State} (h : runFor m s = .next t) (ht : t.ended) (hmn : m ≤ n) :
    runFor n s = .next t := by
  obtain ⟨d, rfl⟩ := Nat.exists_eq_add_of_le hmn
  rw [runFor_add h, runFor_of_not_fetch (State.ended_not_fetch ht)]

theorem runsToEnd_unique {s t u : State} (ht : runsToEnd s t) (hu : runsToEnd s u) : t = u := by
  obtain ⟨m, hm, hmend⟩ := ht
  obtain ⟨n, hn, hnend⟩ := hu
  have hmax := runFor_of_le_of_ended hm hmend (Nat.le_max_left m n)
  rw [runFor_of_le_of_ended hn hnend (Nat.le_max_right m n)] at hmax
  injection hmax with hmax
  exact hmax.symm

/-- The host gets one answer at most: a limited run is a function, and an unlimited one ends in one state. -/
theorem HostCore.runAnswers_unique {h : HostCore} {limit : Option Nat} {p q : HostCore × Reply}
    (hp : h.runAnswers limit p) (hq : h.runAnswers limit q) : p = q := by
  obtain ⟨cfg, state⟩ := h
  cases limit with
  | some n => exact hp.trans hq.symm
  | none =>
    cases state with
    | none => exact hp.trans hq.symm
    | some s =>
      obtain ⟨t, ht, rfl⟩ := hp
      obtain ⟨u, hu, rfl⟩ := hq
      rw [runsToEnd_unique ht hu]

theorem HostCore.load_unloaded {cfg : Config} {image memInit : List Byte} {s : State}
    (h : State.load cfg image memInit = .ok s) :
    ((HostCore.unloaded cfg).load image memInit).1 = { cfg := cfg, state := some s } := by
  simp only [HostCore.load, HostCore.unloaded, h]

theorem HostCore.run_loaded {cfg : Config} {s t : State} {n : Nat} (h : runFor n s = .next t) :
    HostCore.run { cfg := cfg, state := some s } n = ({ cfg := cfg, state := some t }, .ran t.status) := by
  simp only [HostCore.run, h]

/-- Outside EXECUTE the status tells the run state (R109, R112). -/
theorem State.status_iff {t : State} (h : t.run ≠ .execute) :
    (t.status = .halted ↔ t.run = .halted) ∧ (t.status = .faulted t.fault.kind t.fault.pc ↔ t.run = .faulted) ∧
      (t.status = .stepLimitReached ↔ t.run = .fetch) := by
  unfold State.status
  cases hrun : t.run with
  | execute => exact absurd hrun h
  | fetch => simp
  | halted => simp
  | faulted => simp

/-- The bits of the packed flags are the flags (R31). -/
theorem Flags.pack_bits (f : Flags) :
    f.pack.getLsbD 3 = f.c ∧ f.pack.getLsbD 2 = f.a ∧ f.pack.getLsbD 1 = f.e ∧ f.pack.getLsbD 0 = f.z := by
  obtain ⟨c, a, e, z⟩ := f
  revert c a e z
  decide

theorem Flags.pack_injective {f g : Flags} (h : f.pack = g.pack) : f = g := by
  obtain ⟨hc, ha, he, hz⟩ := f.pack_bits
  obtain ⟨hc', ha', he', hz'⟩ := g.pack_bits
  rw [h] at hc ha he hz
  obtain ⟨c, a, e, z⟩ := f
  exact Flags.mk.injEq .. ▸ ⟨hc.symm.trans hc', ha.symm.trans ha', he.symm.trans he', hz.symm.trans hz'⟩

theorem RunState.code_injective {r q : RunState} (h : r.code = q.code) : r = q := by
  revert h; cases r <;> cases q <;> decide

theorem FaultKind.code_injective {k l : FaultKind} (h : k.code = l.code) : k = l := by
  revert h; cases k <;> cases l <;> decide

theorem Memory.read_of_below {m : Memory} {size a : Nat} (h : m.below size) (ha : size ≤ a) :
    Memory.read m a = Memory.unlisted a := by
  induction m with
  | nil => rfl
  | cons c m ih =>
    obtain ⟨hc, hm⟩ := List.forall_mem_cons.mp h
    rw [Memory.read_of_ne_head m (hc.trans_le ha).ne', ih hm]

/-- Canonical memories inside one bound that show the host the same bytes are equal. -/
theorem Memory.ext_observed {m m' : Memory} {size : Nat} (h : m.wf) (h' : m'.wf) (hb : m.below size) (hb' : m'.below size)
    (hobs : (List.range size).map m.read = (List.range size).map m'.read) : m = m' := by
  refine Memory.ext_read h h' fun a => ?_
  by_cases ha : a < size
  · exact List.map_inj_left.mp hobs a (List.mem_range.mpr ha)
  · rw [Memory.read_of_below hb (Nat.le_of_not_lt ha), Memory.read_of_below hb' (Nat.le_of_not_lt ha)]

theorem Regs.ext_get {x y : Regs} (h : ∀ r, x.get r = y.get r) : x = y := by
  obtain ⟨x0, x1, x2, x3⟩ := x
  exact Regs.mk.injEq .. ▸ ⟨h .r0, h .r1, h .r2, h .r3⟩

end Sys2Proof.Machine
end

section
/-! The obligations of 40_fetch_execute.md section 2: runs, answers and observation. -/

namespace Sys2Proof.Machine

/-- Settles O32: the jump to its own offset is a step that changes nothing. -/
theorem selfJumpNeverEnds : Obligations.SelfJumpNeverEnds := by
  unfold Obligations.SelfJumpNeverEnds
  intro x s hf hi hx
  have hself : step s = .next s := by
    rw [step_of_instr hf (fetchInstr_eq_instr_iff_decodesTo.mpr hi)]
    exact congrArg Host.Outcome.next (by rw [targetOf, hx]; rfl)
  refine ⟨runFor_of_step_self hself, fun ⟨t, n, hn, hend⟩ => ?_⟩
  rw [runFor_of_step_self hself] at hn
  injection hn with hn
  exact State.ended_not_fetch hend (hn ▸ hf)

/-- Settles O51. -/
theorem runContinuesWhereItPaused : Obligations.RunContinuesWhereItPaused := by
  unfold Obligations.RunContinuesWhereItPaused
  exact ⟨runFor_zero, fun s hf => runFor_one_fetch hf, fun m n s t h => runFor_add h n⟩

/-- Settles O52: the loaded state meets the invariant, every step of the run keeps it, and it leaves no other status. -/
theorem runOfLoadedCore : Obligations.RunOfLoadedCore := by
  unfold Obligations.RunOfLoadedCore
  intro cfg image memInit n hcfg himg hmem
  have hload := State.load_eq_ok himg hmem
  obtain ⟨t, hrun, hinv, htimg⟩ := runFor_inv (State.load_inv hcfg hload) n
  refine ⟨t, ?_, hinv, htimg, State.status_iff hinv.notExecute⟩
  rw [HostCore.load_unloaded hload, HostCore.run_loaded hrun]

/-- Settles O53: a state at the end is kept, so two limits that reach an end reach the same one. -/
theorem runEndsInOneState : Obligations.RunEndsInOneState := by
  unfold Obligations.RunEndsInOneState
  refine ⟨fun s t u => runsToEnd_unique, fun t n ht => runFor_of_not_fetch (State.ended_not_fetch ht) n,
    fun h limit p q => HostCore.runAnswers_unique, fun cfg s p => ?_⟩
  rw [HostCore.runAnswers_loaded]
  constructor
  · rintro ⟨t, ⟨n, hn, hend⟩, rfl⟩
    exact ⟨n, t, hn, hend, rfl, by rw [State.status_ended hend]⟩
  · rintro ⟨n, t, hn, hend, hcore, hreply⟩
    exact ⟨t, ⟨n, hn, hend⟩, Prod.ext hcore (by rw [hreply, State.status_ended hend])⟩

/-- Settles O54: the observation shows each field, the memory by its bytes below `MEM_SIZE`. -/
theorem observationShowsTheState : Obligations.ObservationShowsTheState := by
  unfold Obligations.ObservationShowsTheState
  intro s t hs ht hcfg himg hobs
  simp only [State.observe, Observation.mk.injEq, List.cons.injEq, and_true] at hobs
  obtain ⟨⟨h0, h1, h2, h3⟩, hflags, hmem, hpc, hrun, hkind, hfpc⟩ := hobs
  have hregs : s.regs = t.regs := Regs.ext_get fun r => by cases r <;> assumption
  have hbytes : s.mem = t.mem :=
    Memory.ext_observed hs.memWf ht.memWf hs.memBelow (hcfg ▸ ht.memBelow) (by rw [hmem, hcfg])
  have hfault : s.fault = t.fault := FaultRecord.mk.injEq .. ▸ ⟨FaultKind.code_injective hkind, hfpc⟩
  exact State.mk.injEq .. ▸
    ⟨hregs, Flags.pack_injective hflags, hpc, RunState.code_injective hrun, hfault, hbytes, himg, hcfg⟩

/-- Settles O44: a refused `Load` leaves the unloaded core, which has no state to step. -/
theorem rejectedLoadLeavesNothingToRun : Obligations.RejectedLoadLeavesNothingToRun := by
  unfold Obligations.RejectedLoadLeavesNothingToRun
  intro h image memInit n hlong
  obtain ⟨r, hr⟩ := State.load_refuses hlong
  refine ⟨⟨r, by simp only [HostCore.load, hr]⟩, by simp only [HostCore.load, hr]; rfl, rfl, rfl,
    fun limit after => ?_⟩
  cases limit with
  | none => exact HostCore.runAnswers_unloaded h.cfg after
  | some m => exact HostCore.runAnswers_limit (HostCore.unloaded h.cfg) m after

end Sys2Proof.Machine
end

section
/-! The ALU's results and carries as numbers, what they take from the old flags, and the block that computes them
(41_alu.md). -/

namespace Sys2Proof.Machine

theorem fillBit_of_zero {cfg : Config} (h : cfg.shiftFill = .zero) (oldC : Bool) : fillBit cfg oldC = false := by
  simp only [fillBit, h]

theorem fillBit_of_oldC {cfg : Config} (h : cfg.shiftFill = .oldC) (oldC : Bool) : fillBit cfg oldC = oldC := by
  simp only [fillBit, h]

theorem notCarryBit_of_clear {cfg : Config} (h : cfg.notCarry = .clear) (oldC : Bool) : notCarryBit cfg oldC = false := by
  simp only [notCarryBit, h]

theorem notCarryBit_of_unchanged {cfg : Config} (h : cfg.notCarry = .unchanged) (oldC : Bool) :
    notCarryBit cfg oldC = oldC := by
  simp only [notCarryBit, h]

theorem toNat_append_eq_add {m n : Nat} (x : BitVec m) (y : BitVec n) : (x ++ y).toNat = x.toNat * 2 ^ n + y.toNat := by
  rw [BitVec.toNat_append, ← Nat.shiftLeft_add_eq_or_of_lt y.isLt, Nat.shiftLeft_eq]

/-- `SHR` halves its operand, and the fill bit enters at bit 7 (R122). -/
theorem toNat_aluResult_shr (cfg : Config) (oldC : Bool) (a b : Byte) :
    (aluResult cfg oldC .shr a b).toNat = b.toNat / 2 + (if fillBit cfg oldC then 128 else 0) := by
  have hb := b.isLt
  simp only [aluResult, toNat_append_eq_add, BitVec.extractLsb'_toNat, Nat.shiftRight_eq_div_pow]
  cases fillBit cfg oldC
  · simp; omega
  · simp; omega

/-- `SHL` doubles its operand modulo 256, and the fill bit enters at bit 0 (R123). -/
theorem toNat_aluResult_shl (cfg : Config) (oldC : Bool) (a b : Byte) :
    (aluResult cfg oldC .shl a b).toNat = b.toNat * 2 % 256 + (if fillBit cfg oldC then 1 else 0) := by
  simp only [aluResult, toNat_append_eq_add, BitVec.extractLsb'_toNat, Nat.shiftRight_zero]
  cases fillBit cfg oldC
  · simp; omega
  · simp; omega

/-- `NOT` subtracts its operand from 255 (R124). -/
theorem toNat_aluResult_not (cfg : Config) (oldC : Bool) (a b : Byte) :
    (aluResult cfg oldC .not a b).toNat = 255 - b.toNat :=
  BitVec.toNat_not

theorem aluCarry_shr (cfg : Config) (oldC : Bool) (a b : Byte) :
    aluCarry cfg oldC .shr a b = decide (b.toNat % 2 = 1) := by
  simp [aluCarry, BitVec.getLsbD, Nat.testBit_zero]

theorem aluCarry_shl (cfg : Config) (oldC : Bool) (a b : Byte) :
    aluCarry cfg oldC .shl a b = decide (128 ≤ b.toNat) :=
  Bool.eq_iff_iff.mpr ((bit7_iff b).trans decide_eq_true_iff.symm)

/-- At the default `SHIFT_FILL` the result takes nothing from the old C (R119, D8). -/
theorem aluResult_oldC_irrelevant {cfg : Config} (hfill : cfg.shiftFill = .zero) (c d : Bool) (o : AluOp) (a b : Byte) :
    aluResult cfg c o a b = aluResult cfg d o a b := by
  unfold aluResult
  rw [fillBit_of_zero hfill, fillBit_of_zero hfill]

/-- Nor do the flags at the defaults of `SHIFT_FILL` and `NOT_CARRY` (R119, D8, D9). -/
theorem aluFlags_oldC_irrelevant {cfg : Config} (hfill : cfg.shiftFill = .zero) (hnot : cfg.notCarry = .clear)
    (c d : Bool) (o : AluOp) (a b : Byte) : aluFlags cfg c o a b = aluFlags cfg d o a b := by
  unfold aluFlags aluCarry
  rw [aluResult_oldC_irrelevant hfill c d, notCarryBit_of_clear hnot, notCarryBit_of_clear hnot]

/-- A vector passes if the block's operation gives the expected result and carry: A, E and Z are the same comparisons
over numbers. -/
theorem vectorPasses_aluBlock {oldC : Bool} {op : BitVec 3} {o : AluOp} {a b : Byte}
    (hop : AluCodes.default.op op = some o) (hr : ((aluResult Config.default oldC o a b).toNat, aluCarry Config.default oldC o a b) =
      expectedResult op.toNat a.toNat b.toNat) : vectorPasses (aluBlock Config.default oldC) op a b := by
  refine ⟨{ r := aluResult Config.default oldC o a b, flags := aluFlags Config.default oldC o a b }, ?_, hr, rfl, ?_, ?_⟩
  · have hcodes : Config.default.aluCodes.op op = some o := hop
    simp only [aluBlock, hcodes]
  · simp [aluFlags, ← BitVec.toNat_inj]
  · simp [aluFlags, ← BitVec.toNat_inj]

theorem aluBlock_outputs_iff (cfg : Config) (oldC : Bool) (op : BitVec 3) (a b : Byte) :
    ((aluBlock cfg oldC op a b).dis = true ↔ op = 7#3) ∧ ((aluBlock cfg oldC op a b).out = none ↔ op = 7#3) := by
  rw [← cfg.aluCodes.op_eq_none_iff op]
  unfold aluBlock
  cases cfg.aluCodes.op op <;> simp

end Sys2Proof.Machine
end

section
/-! The obligations of 41_alu.md on the shifts, `NOT`, equal operands, the old flags and the ALU block. -/

namespace Sys2Proof.Machine

/-- Settles O10: the shifted operand has the fill bit on top. -/
theorem shrResult : Obligations.ShrResult := by
  unfold Obligations.ShrResult
  intro ra rb s
  obtain ⟨t, ht, hr, hf, hcommon⟩ := exec_alu (i := .shr ra rb) rfl s
  refine ⟨decode_opByte (c := 1#3) rfl (by simp), t, ht, fun hfill => ?_, fun hfill => ?_, by rw [hf]; rfl, hcommon⟩
  · rw [hr, toNat_aluResult_shr, fillBit_of_zero hfill]
    rfl
  · rw [hr, toNat_aluResult_shr, fillBit_of_oldC hfill]

/-- Settles O11: the shifted operand has the fill bit at the bottom. -/
theorem shlResult : Obligations.ShlResult := by
  unfold Obligations.ShlResult
  intro ra rb s
  obtain ⟨t, ht, hr, hf, hcommon⟩ := exec_alu (i := .shl ra rb) rfl s
  refine ⟨decode_opByte (c := 2#3) rfl (by simp), t, ht, fun hfill => ?_, fun hfill => ?_, by rw [hf]; rfl, hcommon⟩
  · rw [hr, toNat_aluResult_shl, fillBit_of_zero hfill]
    rfl
  · rw [hr, toNat_aluResult_shl, fillBit_of_oldC hfill]

/-- Settles O12: the carry is the parameter's, and the result the complement. -/
theorem notResult : Obligations.NotResult := by
  unfold Obligations.NotResult
  intro ra rb s
  obtain ⟨t, ht, hr, hf, hcommon⟩ := exec_alu (i := .not ra rb) rfl s
  refine ⟨decode_opByte (c := 3#3) rfl (by simp), t, ht, ?_, fun hnot => ?_, fun hnot => ?_, hcommon⟩
  · rw [hr, toNat_aluResult_not]
  · rw [hf]
    exact notCarryBit_of_clear hnot _
  · rw [hf]
    exact notCarryBit_of_unchanged hnot _

/-- Settles O17: a value equals itself, and its sum with itself is its double, with one carry. -/
theorem sameRegisterOperands : Obligations.SameRegisterOperands := by
  unfold Obligations.SameRegisterOperands
  refine ⟨fun i o r s t hi h => ?_, fun r s hfill => ?_⟩
  · obtain ⟨u, hu, -, -, ha, he, -, -, hregs, -⟩ := exec_alu hi s
    rw [h] at hu
    injection hu with hu
    subst hu
    exact ⟨by simp [he], by simp [ha], hregs⟩
  · obtain ⟨t, ht, htr, htf, -⟩ := exec_alu (i := .add r r) rfl s
    obtain ⟨u, hu, hur, huf, -⟩ := exec_alu (i := .shl r r) rfl s
    refine ⟨t, u, ht, hu, ?_, ?_⟩
    · rw [htr, hur]
      refine BitVec.eq_of_toNat_eq ?_
      rw [toNat_aluResult_shl, fillBit_of_zero hfill]
      simp [aluResult, Nat.mul_two]
    · rw [htf, huf]
      refine Eq.trans ?_ (aluCarry_shl s.cfg s.flags.c (s.reg r) (s.reg r)).symm
      exact decide_eq_decide.mpr (by omega)

/-- Settles O18: the operands and parameters are equal, and the ALU function takes nothing else. -/
theorem aluIgnoresOldFlags : Obligations.AluIgnoresOldFlags := by
  unfold Obligations.AluIgnoresOldFlags
  intro i o ra rb s s' hi hfill hnot hcfg hregs
  have hreg : ∀ r, s'.reg r = s.reg r := fun r => congrArg (Regs.get · r) hregs
  refine ⟨_, _, exec_of_asAlu hi s, exec_of_asAlu hi s', ?_, ?_⟩
  · simp [hcfg, hregs, hreg, aluResult_oldC_irrelevant hfill s'.flags.c s.flags.c]
  · simp [hcfg, hreg, aluFlags_oldC_irrelevant hfill hnot s'.flags.c s.flags.c]

/-- Settles O19, code by code; code 111 alone names no operation. -/
theorem aluBlockPassesTestbench : Obligations.AluBlockPassesTestbench := by
  unfold Obligations.AluBlockPassesTestbench
  refine ⟨fun oldC => ⟨fun op a b hop => ?_, fun a b => rfl⟩, aluBlock_outputs_iff⟩
  obtain rfl | rfl | rfl | rfl | rfl | rfl | rfl | rfl := code_cases op
  · exact vectorPasses_aluBlock (o := .add) rfl (Prod.ext (BitVec.toNat_add ..) rfl)
  · exact vectorPasses_aluBlock (o := .shr) rfl
      (Prod.ext (toNat_aluResult_shr _ oldC a b) (aluCarry_shr Config.default oldC a b))
  · exact vectorPasses_aluBlock (o := .shl) rfl
      (Prod.ext (toNat_aluResult_shl _ oldC a b) (aluCarry_shl Config.default oldC a b))
  · exact vectorPasses_aluBlock (o := .not) rfl (Prod.ext (toNat_aluResult_not Config.default oldC a b) rfl)
  · exact vectorPasses_aluBlock (o := .and) rfl (Prod.ext (BitVec.toNat_and ..) rfl)
  · exact vectorPasses_aluBlock (o := .or) rfl (Prod.ext (BitVec.toNat_or ..) rfl)
  · exact vectorPasses_aluBlock (o := .xor) rfl (Prod.ext (BitVec.toNat_xor ..) rfl)
  · exact absurd rfl hop

end Sys2Proof.Machine
end

section
/-! When a `JIF` is taken, what `ST` leaves, and which instructions read the flags (43_control.md, 42_memory_data.md,
10_state.md section 3). -/

namespace Sys2Proof.Machine

/-- The condition of `JIF` where the parameter for the empty mask plays no part: every selected flag is true (R143). -/
theorem condHolds_iff {cfg : Config} {m : BitVec 4} (h : cfg.emptyMaskTaken = true ∨ m ≠ 0#4) (f : Flags) :
    condHolds cfg m f = true ↔ (m.getLsbD 3 = false ∨ f.c = true) ∧ (m.getLsbD 2 = false ∨ f.a = true) ∧
      (m.getLsbD 1 = false ∨ f.e = true) ∧ (m.getLsbD 0 = false ∨ f.z = true) := by
  by_cases hm : m = 0#4
  · subst hm
    simp [condHolds_zero, h.resolve_right (not_not.mpr rfl)]
  · simp [condHolds, hm, and_assoc]

/-- A mask selects no bit outside `p` exactly if each of its bits is one of `p`. -/
theorem and_eq_self_iff_bits : ∀ m p : BitVec 4, m &&& p = m ↔
    (m.getLsbD 3 = false ∨ p.getLsbD 3 = true) ∧ (m.getLsbD 2 = false ∨ p.getLsbD 2 = true) ∧
      (m.getLsbD 1 = false ∨ p.getLsbD 1 = true) ∧ (m.getLsbD 0 = false ∨ p.getLsbD 0 = true) := by
  decide

theorem Flags.pack_toNat (f : Flags) :
    f.pack.toNat = 8 * f.c.toNat + 4 * f.a.toNat + 2 * f.e.toNat + f.z.toNat := by
  obtain ⟨c, a, e, z⟩ := f
  revert c a e z
  decide

theorem ofNat_jif_byte (m : BitVec 4) : BitVec.ofNat 8 (0x50 + m.toNat) = 0x5#4 ++ m := by
  revert m
  decide

/-- The bytes 0x10 to 0x1F are `ST` under every `ALU_CODES` (R72). -/
theorem decodeOpcode_opByte_st (k : AluCodes) (ra rb : Reg) :
    decodeOpcode k (opByte 0x10 ra rb) = .complete (.st ra rb) := by
  cases ra <;> cases rb <;> rfl

/-- A memory write and a new `pc`, the effect of `ST` in range, leave the rest of the state as it was. -/
theorem frame_of_eq_setMem_setPc {s t : State} {a : Nat} {v : Byte} {p : Nat} (hwf : s.mem.wf)
    (ht : t = (s.setMem a v).setPc p) :
    t.mem.read a = v ∧ (∀ b, b ≠ a → t.mem.read b = s.mem.read b) ∧ t.pc = p ∧ t.flags = s.flags ∧ sameRegs s t ∧
      sameControl s t := by
  subst ht
  exact ⟨Memory.read_write_same s.mem a v hwf, fun b hb => Memory.read_write_other s.mem v hwf hb, rfl, rfl,
    fun _ => rfl, rfl, rfl, rfl, rfl⟩

/-- At the default `SHIFT_FILL` every instruction but `JIF` does the same over other flags, but for the flags it leaves. -/
theorem exec_setFlags {i : Instr} {s : State} (f : Flags) (hjif : ∀ m x, i ≠ .jif m x)
    (hfill : s.cfg.shiftFill = .zero) :
    ∃ t t', exec i s = .next t ∧ exec i (s.setFlags f) = .next t' ∧ t'.setFlags t.flags = t := by
  cases ha : i.asAlu with
  | some op =>
    obtain ⟨o, ra, rb⟩ := op
    refine ⟨_, _, exec_of_asAlu ha s, exec_of_asAlu ha (s.setFlags f), ?_⟩
    simp only [State.setFlags_cfg, State.setFlags_flags, State.setFlags_reg, State.setFlags_pc,
      aluResult_oldC_irrelevant hfill f.c s.flags.c]
    rfl
  | none =>
    cases i with
    | ld ra rb =>
      by_cases hr : (s.ldAddr ra).toNat < s.cfg.memSize
      · exact ⟨_, _, execLd_inRange hr, execLd_inRange (s := s.setFlags f) hr, rfl⟩
      · exact ⟨_, _, execLd_outOfRange hr, execLd_outOfRange (s := s.setFlags f) hr, rfl⟩
    | st ra rb =>
      by_cases hr : (s.stAddr ra rb).toNat < s.cfg.memSize
      · exact ⟨_, _, execSt_inRange hr, execSt_inRange (s := s.setFlags f) hr, rfl⟩
      · exact ⟨_, _, execSt_outOfRange hr, execSt_outOfRange (s := s.setFlags f) hr, rfl⟩
    | jif m x => exact absurd rfl (hjif m x)
    | end_ | cmp | data | jmpr | jmp | clf => exact ⟨_, _, rfl, rfl, rfl⟩
    | _ => cases ha

end Sys2Proof.Machine
end

section
/-! The obligations of 42_memory_data.md on `ST`, of 43_control.md on `JIF`, and of 10_state.md section 3. -/

namespace Sys2Proof.Machine

/-- Settles O21: in range `ST` writes its byte and `pc`; out of range it only raises. -/
theorem stResult : Obligations.StResult := by
  unfold Obligations.StResult
  intro ra rb s hwf
  refine ⟨decode_of_complete (decodeOpcode_opByte_st _ ra rb) [], fun hroles => ?_, fun hroles => ?_, fun hin => ?_,
    fun hout => ?_⟩
  · simp only [State.stAddr, State.stValue, hroles, and_self]
  · simp only [State.stAddr, State.stValue, hroles, and_self]
  · exact ⟨_, execSt_inRange hin, frame_of_eq_setMem_setPc hwf rfl⟩
  · exact ⟨_, execSt_outOfRange hout.not_gt, s.faultedAs_raise _⟩

/-- Settles O23: `ST` leaves the address register, and `LD` reads the byte written. -/
theorem loadAfterStoreGivesTheByte : Obligations.LoadAfterStoreGivesTheByte := by
  unfold Obligations.LoadAfterStoreGivesTheByte
  intro ra rb rc s t hwf hroles hin h
  have haddr : s.stAddr ra rb = s.reg rb := by simp only [State.stAddr, hroles]
  have hvalue : s.stValue ra rb = s.reg ra := by simp only [State.stValue, hroles]
  have hst : exec (.st ra rb) s = _ := execSt_inRange (haddr ▸ hin)
  rw [h, haddr, hvalue] at hst
  injection hst with hst
  subst hst
  refine ⟨_, execLd_inRange hin, ?_⟩
  rw [State.setPc_reg, State.setReg_reg_same]
  exact Memory.read_write_same s.mem _ _ hwf

/-- Settles O27: `JIF` writes `pc` alone, by its condition. -/
theorem jifResult : Obligations.JifResult := by
  unfold Obligations.JifResult
  intro m x s
  rw [ofNat_jif_byte]
  refine ⟨decode_of_pending (decodeOpcode_jif _ m) x [],
    faultsWithoutOperand_of_pending fun k => ⟨_, decodeOpcode_jif k m⟩,
    s.setPc (if condHolds s.cfg m s.flags then targetOf x else s.pc + 2), rfl, fun h => ?_, fun hnot hm => ?_,
    fun hae ha he => ?_, (frame_of_eq_setPc rfl).2⟩
  · simp only [State.setPc_pc, condHolds_iff h]
    rfl
  · simp [hm, condHolds_zero, hnot]
  · have hm : m ≠ 0#4 := by rintro rfl; cases ha
    have hcond : ¬condHolds s.cfg m s.flags = true := by
      rw [condHolds_iff (.inr hm)]
      rintro ⟨-, hA, hE, -⟩
      exact hae ⟨hA.resolve_left (by simp [ha]), hE.resolve_left (by simp [he])⟩
    exact if_neg hcond

/-- Settles O30: both say of each bit that the mask selects it only where the flag is true. -/
theorem flagPackingIsMaskOrder : Obligations.FlagPackingIsMaskOrder := by
  unfold Obligations.FlagPackingIsMaskOrder
  refine fun f => ⟨f.pack_toNat, fun m => ?_⟩
  obtain ⟨hc, ha, he, hz⟩ := f.pack_bits
  rw [condHolds_iff (.inl rfl), and_eq_self_iff_bits, hc, ha, he, hz]

/-- Settles O31: the ALU's result takes nothing from the old flags at the defaults, and no other meaning but that of `JIF`
mentions them. -/
theorem onlyJifReadsFlags : Obligations.OnlyJifReadsFlags := by
  unfold Obligations.OnlyJifReadsFlags
  exact fun i f s hjif hfill _ => exec_setFlags f hjif hfill

end Sys2Proof.Machine
end

section
/-! The lines of a source (30_encoding.md section 4): what `parseLines` makes of them, and what one line can parse to. -/

namespace Sys2Proof.Machine

theorem parseLines_cons_blank {k : AluCodes} {line : List Char} (h : parseLine k line = .ok none) (n : Nat)
    (rest : List (List Char)) : parseLines k n (line :: rest) = parseLines k (n + 1) rest := by
  simp only [parseLines, h]

theorem parseLines_cons_item {k : AluCodes} {line : List Char} {it : Item} (h : parseLine k line = .ok (some it))
    (n : Nat) (rest : List (List Char)) :
    parseLines k n (line :: rest) = ((n, it) :: (parseLines k (n + 1) rest).1, (parseLines k (n + 1) rest).2) := by
  simp only [parseLines, h]

theorem parseLines_cons_error {k : AluCodes} {line : List Char} {e : AsmErrorKind} (h : parseLine k line = .error e)
    (n : Nat) (rest : List (List Char)) :
    parseLines k n (line :: rest) =
      ((parseLines k (n + 1) rest).1, { kind := e, line := n } :: (parseLines k (n + 1) rest).2) := by
  simp only [parseLines, h]

/-- Lines that all parse give their items in order and no error. -/
theorem parseLines_of_parsed {k : AluCodes} {lines : List (List Char)} {parsed : List (Option Item)}
    (h : lines.map (parseLine k) = parsed.map Parsed.ok) (n : Nat) :
    (parseLines k n lines).2 = [] ∧ (parseLines k n lines).1.map Prod.snd = parsed.filterMap id := by
  induction lines generalizing parsed n with
  | nil =>
    cases parsed with
    | nil => exact ⟨rfl, rfl⟩
    | cons o parsed => cases h
  | cons line lines ih =>
    cases parsed with
    | nil => cases h
    | cons o parsed =>
      rw [List.map_cons, List.map_cons, List.cons.injEq] at h
      obtain ⟨hline, hlines⟩ := h
      obtain ⟨herrors, hitems⟩ := ih hlines (n + 1)
      cases o with
      | none => exact parseLines_cons_blank hline n lines ▸ ⟨herrors, hitems⟩
      | some it =>
        rw [parseLines_cons_item hline]
        exact ⟨herrors, congrArg (it :: ·) hitems⟩

/-- Without an error every line parses. -/
theorem parsed_of_parseLines {k : AluCodes} {lines : List (List Char)} {n : Nat} (h : (parseLines k n lines).2 = []) :
    ∃ parsed : List (Option Item), lines.map (parseLine k) = parsed.map Parsed.ok := by
  induction lines generalizing n with
  | nil => exact ⟨[], rfl⟩
  | cons line lines ih =>
    cases hline : parseLine k line with
    | error e => rw [parseLines_cons_error hline] at h; cases h
    | ok o =>
      have hrest : (parseLines k (n + 1) lines).2 = [] := by
        cases o with
        | none => rwa [parseLines_cons_blank hline] at h
        | some it => rwa [parseLines_cons_item hline] at h
      obtain ⟨parsed, hparsed⟩ := ih hrest
      exact ⟨o :: parsed, by rw [List.map_cons, List.map_cons, hline, hparsed]⟩

/-- A line in error is reported with its number, counted from the first line's (R92). -/
theorem mem_errors_parseLines {k : AluCodes} {lines : List (List Char)} {j : Nat} {line : List Char} {e : AsmErrorKind}
    (hj : lines[j]? = some line) (he : parseLine k line = .error e) (n : Nat) :
    { kind := e, line := n + j } ∈ (parseLines k n lines).2 := by
  induction lines generalizing j n with
  | nil => cases hj
  | cons first lines ih =>
    cases j with
    | zero =>
      rw [List.getElem?_cons_zero, Option.some.injEq] at hj
      rw [parseLines_cons_error (hj ▸ he)]
      exact List.mem_cons_self
    | succ j =>
      rw [List.getElem?_cons_succ] at hj
      have hrest := ih hj (n + 1)
      rw [Nat.add_right_comm, Nat.add_assoc] at hrest
      cases hfirst : parseLine k first with
      | error e' => rw [parseLines_cons_error hfirst]; exact List.mem_cons_of_mem _ hrest
      | ok o =>
        cases o with
        | none => rwa [parseLines_cons_blank hfirst]
        | some it => rwa [parseLines_cons_item hfirst]

/-- An error of a line is an error of the assembly, which then makes no image (R92). -/
theorem assembleLines_error_of_mem {k : AluCodes} {lines : List (List Char)} {e : AsmError}
    (h : e ∈ (parseLines k 1 lines).2) : ∃ es, assembleLines k lines = .error es ∧ e ∈ es := by
  unfold assembleLines assembleInstrs
  simp only
  generalize pass2 _ 0 _ = out
  generalize hall : (parseLines k 1 lines).2 ++ _ ++ out.2 = all
  have hmem : e ∈ all := hall ▸ List.mem_append_left _ (List.mem_append_left _ h)
  cases all with
  | nil => cases hmem
  | cons e' es => exact ⟨e' :: es, rfl, hmem⟩

theorem parseLine_of_comma (k : AluCodes) {line : List Char} (h : ',' ∈ stripComment line) :
    parseLine k line = .error .syntaxError :=
  if_pos (List.contains_iff_mem.mpr h)

/-- A line without a comma parses as its first token's mnemonic with the other tokens as operands. -/
theorem parseLine_of_tokens (k : AluCodes) {line tok : List Char} {ops : List (List Char)}
    (hcomma : ',' ∉ stripComment line) (htok : tokens (stripComment line) = tok :: ops) :
    parseLine k line =
      (parseMnemonic tok).bind fun mn => (parseOperands k mn ops).bind fun it => .ok (some it) := by
  have hcontains : (stripComment line).contains ',' = false := by simpa using hcomma
  simp only [parseLine, hcontains, htok]
  rfl

theorem parseMnemonic_cmp {tok : List Char} (h : tok.map upperChar = ['C', 'M', 'P']) : parseMnemonic tok = .ok .cmp := by
  unfold parseMnemonic
  rw [h]
  rfl

theorem parseOperands_cmp (k : AluCodes) (ops : List (List Char)) :
    parseOperands k .cmp ops = .error .disabledOpcode := by
  unfold parseOperands
  rfl

theorem parseLine_comment (k : AluCodes) (text : List Char) : parseLine k ('/' :: '/' :: text) = .ok none := rfl

/-- An item's own instruction is well formed and not `CMP`. -/
def Item.sound (k : AluCodes) (it : Item) : Prop := ∀ i, it = .instr i → i.wf k ∧ ∀ ra rb, i ≠ .cmp ra rb

theorem Item.sound_of_asAlu_eq_none {k : AluCodes} {i : Instr} (h : i.asAlu = none) (hcmp : ∀ ra rb, i ≠ .cmp ra rb) :
    (Item.instr i).sound k := by
  rintro j ⟨⟩
  exact ⟨Instr.wf_of_asAlu_eq_none k h, hcmp⟩

/-- Two register operands make an item only of an encodable instruction (R91). -/
theorem sound_of_parseTwoRegs {k : AluCodes} {mk : Reg → Reg → Instr} {a b : List Char} {it : Item}
    (hmk : ∀ ra rb ra' rb', mk ra rb ≠ .cmp ra' rb') (h : parseTwoRegs k mk a b = .ok it) : it.sound k := by
  obtain ⟨ra, -, h⟩ := Parsed.bind_eq_ok.mp h
  obtain ⟨rb, -, h⟩ := Parsed.bind_eq_ok.mp h
  unfold encodable at h
  split_ifs at h with hwf
  cases h
  rintro i ⟨⟩
  exact ⟨hwf, hmk ra rb⟩

theorem Instr.alu_ne_cmp (o : AluOp) (ra rb ra' rb' : Reg) : Instr.alu o ra rb ≠ .cmp ra' rb' := by
  cases o <;> nofun

/-- No operands of any mnemonic make an instruction that is `CMP` or has no encoding (R90, R91). -/
theorem sound_of_parseOperands {k : AluCodes} {mn : Mnemonic} {ops : List (List Char)} {it : Item}
    (h : parseOperands k mn ops = .ok it) : it.sound k := by
  unfold parseOperands at h
  split at h
  next o a b => exact sound_of_parseTwoRegs (Instr.alu_ne_cmp o) h
  next => cases h
  next => exact sound_of_parseTwoRegs (mk := .ld) (fun _ _ _ _ => nofun) h
  next => exact sound_of_parseTwoRegs (mk := .st) (fun _ _ _ _ => nofun) h
  next =>
    obtain ⟨rb, -, h⟩ := Parsed.bind_eq_ok.mp h
    obtain ⟨v, -, h⟩ := Parsed.bind_eq_ok.mp h
    cases h
    exact Item.sound_of_asAlu_eq_none rfl nofun
  next =>
    obtain ⟨rb, -, h⟩ := Parsed.bind_eq_ok.mp h
    cases h
    exact Item.sound_of_asAlu_eq_none rfl nofun
  next =>
    obtain ⟨name, -, h⟩ := Parsed.bind_eq_ok.mp h
    cases h
    exact nofun
  next =>
    obtain ⟨mask, -, h⟩ := Parsed.bind_eq_ok.mp h
    obtain ⟨name, -, h⟩ := Parsed.bind_eq_ok.mp h
    cases h
    exact nofun
  next => cases h; exact Item.sound_of_asAlu_eq_none rfl nofun
  next => cases h; exact Item.sound_of_asAlu_eq_none rfl nofun
  next =>
    obtain ⟨name, -, h⟩ := Parsed.bind_eq_ok.mp h
    cases h
    exact nofun
  next => cases h

theorem sound_of_parseLine {k : AluCodes} {line : List Char} {it : Item} (h : parseLine k line = .ok (some it)) :
    it.sound k := by
  unfold parseLine at h
  simp only at h
  split at h
  · cases h
  · split at h
    · cases h
    · obtain ⟨mn, -, h⟩ := Parsed.bind_eq_ok.mp h
      obtain ⟨it', hops, h⟩ := Parsed.bind_eq_ok.mp h
      cases h
      exact sound_of_parseOperands hops

end Sys2Proof.Machine
end

section
/-! The two passes (30_encoding.md R87 to R93): the offsets pass 1 binds, and the instructions pass 2 makes of them. -/

namespace Sys2Proof.Machine

theorem Item.markName?_eq_some_iff {it : Item} {name : List Char} : it.markName? = some name ↔ it = .mark name := by
  cases it <;> simp [Item.markName?]

theorem SymTab.find?_cons_self (name : List Char) (off : Nat) (sym : SymTab) :
    SymTab.find? ((name, off) :: sym) name = some off := if_pos rfl

theorem SymTab.find?_cons_of_ne {name l : List Char} (off : Nat) (sym : SymTab) (h : name ≠ l) :
    SymTab.find? ((name, off) :: sym) l = sym.find? l := if_neg h

/-- Pass 1 at one item: it goes on behind the item, with the name of a new `MARK` bound to the offset, and it has an error
to report where the name was bound before (R86, R87). -/
theorem pass1_cons (off n : Nat) (it : Item) (sym : SymTab) (rest : List (Nat × Item)) :
    ∃ sym', (pass1 off sym ((n, it) :: rest)).1 = (pass1 (off + it.size) sym' rest).1 ∧
      ((pass1 off sym ((n, it) :: rest)).2 = [] ↔
        (∀ l, it = .mark l → sym.find? l = none) ∧ (pass1 (off + it.size) sym' rest).2 = []) ∧
      ∀ l, sym'.find? l = if it = .mark l ∧ sym.find? l = none then some off else sym.find? l := by
  cases it with
  | mark name =>
    cases hname : sym.find? name with
    | none =>
      refine ⟨(name, off) :: sym, by simp only [pass1, hname]; rfl, ?_, fun l => ?_⟩
      · simp only [pass1, hname]
        exact (and_iff_right fun l hl => Item.mark.inj hl ▸ hname).symm
      · by_cases hl : name = l
        · subst hl
          rw [SymTab.find?_cons_self, if_pos ⟨rfl, hname⟩]
        · rw [SymTab.find?_cons_of_ne off sym hl, if_neg fun h => hl (Item.mark.inj h.1)]
    | some o =>
      refine ⟨sym, by simp only [pass1, hname]; rfl, ?_, fun l => ?_⟩
      · simp only [pass1, hname, reduceCtorEq, false_iff]
        exact fun h => nomatch hname.symm.trans (h.1 name rfl)
      · rw [if_neg]
        rintro ⟨⟨⟩, hnone⟩
        exact nomatch hname.symm.trans hnone
  | instr | jmpTo | jifTo => exact ⟨sym, rfl, (and_iff_right nofun).symm, fun l => (if_neg nofun).symm⟩

/-- A bound name keeps its offset. -/
theorem find?_pass1_of_bound {sym : SymTab} {l : List Char} {o : Nat} (h : sym.find? l = some o) (off : Nat)
    (items : List (Nat × Item)) : (pass1 off sym items).1.find? l = some o := by
  induction items generalizing off sym with
  | nil => exact h
  | cons p rest ih =>
    obtain ⟨sym', hsym, -, hfind⟩ := pass1_cons off p.1 p.2 sym rest
    rw [hsym]
    exact ih (by simp [hfind, h]) _

/-- A name without a `MARK` stays unbound. -/
theorem find?_pass1_of_no_mark {sym : SymTab} {l : List Char} (h : sym.find? l = none) (off : Nat)
    {items : List (Nat × Item)} (hno : ∀ p ∈ items, p.2 ≠ .mark l) : (pass1 off sym items).1.find? l = none := by
  induction items generalizing off sym with
  | nil => exact h
  | cons p rest ih =>
    obtain ⟨hp, hrest⟩ := List.forall_mem_cons.mp hno
    obtain ⟨sym', hsym, -, hfind⟩ := pass1_cons off p.1 p.2 sym rest
    rw [hsym]
    exact ih (by simp [hfind, h, hp]) _ hrest

/-- The first `MARK` of an unbound name binds it to the sizes before it (R87, R88). -/
theorem find?_pass1_first_mark {sym : SymTab} {l : List Char} (h : sym.find? l = none) (off n : Nat)
    {before : List (Nat × Item)} (after : List (Nat × Item)) (hno : ∀ p ∈ before, p.2 ≠ .mark l) :
    (pass1 off sym (before ++ (n, .mark l) :: after)).1.find? l =
      some (off + (before.map fun p => p.2.size).sum) := by
  induction before generalizing off sym with
  | nil =>
    obtain ⟨sym', hsym, -, hfind⟩ := pass1_cons off n (.mark l) sym after
    rw [List.nil_append, hsym]
    exact find?_pass1_of_bound (by simp [hfind, h]) _ after
  | cons p before ih =>
    obtain ⟨hp, hbefore⟩ := List.forall_mem_cons.mp hno
    obtain ⟨sym', hsym, -, hfind⟩ := pass1_cons off p.1 p.2 sym (before ++ (n, .mark l) :: after)
    rw [List.cons_append, hsym, ih (by simp [hfind, h, hp]) _ hbefore, List.map_cons, List.sum_cons, Nat.add_assoc]

/-- The names the `MARK`s of a program bind, in order. -/
def markNames (items : List Item) : List (List Char) := items.filterMap Item.markName?

/-- Pass 1 reports nothing exactly if no name has two `MARK`s and none is bound before (R86). -/
theorem errors_pass1_eq_nil_iff (off : Nat) (sym : SymTab) (items : List (Nat × Item)) :
    (pass1 off sym items).2 = [] ↔ (markNames (items.map Prod.snd)).Nodup ∧
      ∀ name ∈ markNames (items.map Prod.snd), sym.find? name = none := by
  induction items generalizing off sym with
  | nil => simp [pass1, markNames]
  | cons p rest ih =>
    obtain ⟨n, it⟩ := p
    obtain ⟨sym', -, herrors, hfind⟩ := pass1_cons off n it sym rest
    unfold markNames at ih ⊢
    rw [herrors, ih, List.map_cons]
    cases hm : it.markName? with
    | none =>
      have hno : ∀ l, it ≠ .mark l := fun l hl => nomatch hm.symm.trans (Item.markName?_eq_some_iff.mpr hl)
      simp [List.filterMap_cons_none hm, hfind, hno]
    | some name =>
      obtain rfl := Item.markName?_eq_some_iff.mp hm
      rw [List.filterMap_cons_some hm, List.nodup_cons, List.forall_mem_cons]
      grind

theorem mem_markNames {items : List Item} {l : List Char} : l ∈ markNames items ↔ .mark l ∈ items := by
  simp [markNames, Item.markName?_eq_some_iff]

/-- In a program where no name has two `MARK`s, pass 1 binds exactly the offsets of the `MARK`s. -/
theorem find?_pass1_iff_labelAt {items : List (Nat × Item)} (h : (markNames (items.map Prod.snd)).Nodup)
    (l : List Char) (off : Nat) :
    (pass1 0 [] items).1.find? l = some off ↔ labelAt (items.map Prod.snd) l off := by
  have hbinds : ∀ before after, items.map Prod.snd = before ++ .mark l :: after →
      (pass1 0 [] items).1.find? l = some (before.map Item.size).sum := by
    intro before after hsplit
    rw [hsplit, markNames, List.filterMap_append, List.nodup_append] at h
    obtain ⟨numbered, rest, rfl, rfl, hrest⟩ := List.map_eq_append_iff.mp hsplit
    obtain ⟨⟨n, it⟩, numberedAfter, rfl, rfl, -⟩ := List.map_eq_cons_iff.mp hrest
    have hno : ∀ p ∈ numbered, p.2 ≠ .mark l := fun p hp hmark =>
      h.2.2 l (mem_markNames.mpr (hmark ▸ List.mem_map_of_mem hp)) l (mem_markNames.mpr List.mem_cons_self) rfl
    rw [find?_pass1_first_mark rfl 0 n numberedAfter hno, Nat.zero_add, List.map_map]
    rfl
  constructor
  · intro hoff
    by_cases hl : .mark l ∈ items.map Prod.snd
    · obtain ⟨before, after, hsplit⟩ := List.append_of_mem hl
      exact ⟨before, after, hsplit, Option.some.inj (hoff.symm.trans (hbinds before after hsplit))⟩
    · have hno : ∀ p ∈ items, p.2 ≠ .mark l := fun p hp hmark => hl (hmark ▸ List.mem_map_of_mem hp)
      exact nomatch hoff.symm.trans (find?_pass1_of_no_mark rfl 0 hno)
  · rintro ⟨before, after, hsplit, rfl⟩
    exact hbinds before after hsplit

/-- The items of a program that stand for an instruction: all but its `MARK`s (R87, R89). -/
def codedItems (items : List Item) : List Item := items.filter fun it => it.markName?.isNone

theorem codedItems_cons_mark (name : List Char) (items : List Item) :
    codedItems (.mark name :: items) = codedItems items := rfl

theorem codedItems_cons_of_ne_mark {it : Item} (h : it.markName? = none) (items : List Item) :
    codedItems (it :: items) = it :: codedItems items := by
  simp [codedItems, h]

theorem Item.toInstr_ne_ok_none {it : Item} (h : it.markName? = none) (sym : SymTab) : it.toInstr sym ≠ .ok none := by
  cases it with
  | mark name => cases h
  | instr i => nofun
  | jmpTo l => simp [Item.toInstr, Parsed.bind_eq_ok]
  | jifTo m l => simp [Item.toInstr, Parsed.bind_eq_ok]

theorem pass2_cons_mark (sym : SymTab) (off n : Nat) (name : List Char) (rest : List (Nat × Item)) :
    pass2 sym off ((n, .mark name) :: rest) = pass2 sym off rest := by
  have hsize : ¬(off ≤ 256 ∧ 256 < off + (Item.mark name).size) := fun h => h.1.not_gt h.2
  simp only [pass2, Item.toInstr, if_neg hsize]
  rfl

/-- Pass 2 at an item that is no `MARK`: without an error the item ends inside 256 bytes and its instruction comes
first. -/
theorem pass2_cons_coded_eq_ok {it : Item} (h : it.markName? = none) {off : Nat} (hoff : off ≤ 256) (sym : SymTab)
    (n : Nat) (rest : List (Nat × Item)) (is : List Instr) :
    pass2 sym off ((n, it) :: rest) = (is, []) ↔ off + it.size ≤ 256 ∧
      ∃ i js, it.toInstr sym = .ok (some i) ∧ pass2 sym (off + it.size) rest = (js, []) ∧ is = i :: js := by
  generalize hout : pass2 sym (off + it.size) rest = out
  obtain ⟨js, errors⟩ := out
  cases hi : it.toInstr sym with
  | error e => simp [pass2, hi]
  | ok o =>
    cases o with
    | none => exact absurd hi (it.toInstr_ne_ok_none h sym)
    | some i =>
      by_cases hsize : off + it.size ≤ 256
      · simp [pass2, hi, hout, hsize, eq_comm (a := is), and_comm (a := errors = [])]
      · simp [pass2, hi, hsize, hoff]

/-- Pass 2 without an error: the program's bytes end inside 256, and its instructions are those of its items in order. -/
theorem pass2_eq_ok_iff {off : Nat} (hoff : off ≤ 256) (sym : SymTab) (items : List (Nat × Item)) (is : List Instr) :
    pass2 sym off items = (is, []) ↔ off + ((items.map Prod.snd).map Item.size).sum ≤ 256 ∧
      List.Forall₂ (fun it i => it.toInstr sym = .ok (some i)) (codedItems (items.map Prod.snd)) is := by
  induction items generalizing off is with
  | nil => simp [pass2, codedItems, hoff, eq_comm]
  | cons p rest ih =>
    obtain ⟨n, it⟩ := p
    rw [List.map_cons, List.map_cons, List.sum_cons, ← Nat.add_assoc]
    dsimp only
    cases hm : it.markName? with
    | some name =>
      obtain rfl := Item.markName?_eq_some_iff.mp hm
      rw [pass2_cons_mark, ih hoff, codedItems_cons_mark]
      rfl
    | none =>
      rw [pass2_cons_coded_eq_ok hm hoff, codedItems_cons_of_ne_mark hm]
      constructor
      · rintro ⟨hsize, i, js, hi, hrest, rfl⟩
        obtain ⟨hsum, hall⟩ := (ih hsize js).mp hrest
        exact ⟨hsum, .cons hi hall⟩
      · rintro ⟨hsum, hall⟩
        obtain ⟨i, js, hi, hjs, rfl⟩ := List.forall₂_cons_left_iff.mp hall
        have hsize : off + it.size ≤ 256 := by omega
        exact ⟨hsize, i, js, hi, (ih hsize js).mpr ⟨hsum, hjs⟩, rfl⟩

/-- Where the symbol table holds the offsets of the `MARK`s, a label resolves to the offset of its `MARK` below 256. -/
theorem resolve_bind_eq_ok_iff {items : List Item} {sym : SymTab}
    (hsym : ∀ l off, sym.find? l = some off ↔ labelAt items l off) (l : List Char) (mk : Byte → Instr) (i : Instr) :
    ((resolve sym l).bind fun t => .ok (some (mk t))) = .ok (some i) ↔
      ∃ off, labelAt items l off ∧ off < 256 ∧ i = mk (BitVec.ofNat 8 off) := by
  simp only [Parsed.bind_eq_ok, resolve_eq_ok, hsym]
  constructor
  · rintro ⟨_, ⟨off, hat, hlt, rfl⟩, ⟨⟩⟩
    exact ⟨off, hat, hlt, rfl⟩
  · rintro ⟨off, hat, hlt, rfl⟩
    exact ⟨_, ⟨off, hat, hlt, rfl⟩, rfl⟩

/-- Where the symbol table holds the offsets of the `MARK`s, pass 2 makes of an item what it stands for (R89, D25). -/
theorem Item.toInstr_eq_ok_iff_standsFor {items : List Item} {sym : SymTab}
    (hsym : ∀ l off, sym.find? l = some off ↔ labelAt items l off) (it : Item) (i : Instr) :
    it.toInstr sym = .ok (some i) ↔ it.standsFor items i := by
  cases it with
  | instr j => simp [Item.toInstr, Item.standsFor, eq_comm]
  | jmpTo l => exact resolve_bind_eq_ok_iff hsym l .jmp i
  | jifTo m l => exact resolve_bind_eq_ok_iff hsym l (.jif m) i
  | mark name => simp [Item.toInstr, Item.standsFor]

theorem instrsOf_iff_forall₂ (items : List Item) (is : List Instr) :
    instrsOf items is ↔ List.Forall₂ (Item.standsFor items) (codedItems items) is := by
  rw [List.forall₂_iff_zip]
  exact and_congr_right fun _ => ⟨fun h {it i} hp => h (it, i) hp, fun h p hp => h hp⟩

theorem length_encode (k : AluCodes) (i : Instr) : (encode k i).length = i.size := by
  cases i <;> rfl

theorem Item.size_eq_of_standsFor {items : List Item} {it : Item} {i : Instr} (h : it.standsFor items i) :
    it.size = i.size := by
  cases it with
  | instr j => exact congrArg Instr.size h.symm
  | jmpTo l => obtain ⟨off, -, -, rfl⟩ := h; rfl
  | jifTo m l => obtain ⟨off, -, -, rfl⟩ := h; rfl
  | mark name => cases h

theorem sum_size_codedItems (items : List Item) :
    ((codedItems items).map Item.size).sum = (items.map Item.size).sum := by
  induction items with
  | nil => rfl
  | cons it items ih =>
    cases hm : it.markName? with
    | none => rw [codedItems_cons_of_ne_mark hm, List.map_cons, List.map_cons, List.sum_cons, List.sum_cons, ih]
    | some name =>
      obtain rfl := Item.markName?_eq_some_iff.mp hm
      rw [codedItems_cons_mark, ih, List.map_cons, List.sum_cons]
      exact (Nat.zero_add _).symm

/-- The image of a program is as long as its items' sizes add up to. -/
theorem length_image {items : List Item} {is : List Instr} (h : instrsOf items is) (k : AluCodes) :
    (is.flatMap (encode k)).length = (items.map Item.size).sum := by
  rw [instrsOf_iff_forall₂] at h
  rw [← sum_size_codedItems, List.length_flatMap]
  generalize codedItems items = coded at h
  induction h with
  | nil => rfl
  | cons hi _ ih =>
    rw [List.map_cons, List.map_cons, List.sum_cons, List.sum_cons, ih, length_encode, Item.size_eq_of_standsFor hi]

/-- Where pass 1 reports nothing, pass 2 makes of the items the instructions they stand for, and reports nothing exactly if
their bytes are at most 256 (R89, R93). -/
theorem pass2_pass1_eq_ok_iff {items : List (Nat × Item)} (hnames : (markNames (items.map Prod.snd)).Nodup)
    (k : AluCodes) (is : List Instr) : pass2 (pass1 0 [] items).1 0 items = (is, []) ↔
      (is.flatMap (encode k)).length ≤ 256 ∧ instrsOf (items.map Prod.snd) is := by
  have hstands := Item.toInstr_eq_ok_iff_standsFor (find?_pass1_iff_labelAt hnames)
  rw [pass2_eq_ok_iff (Nat.zero_le _), Nat.zero_add]
  simp only [hstands, ← instrsOf_iff_forall₂]
  exact and_congr_left fun hinstrs => by rw [length_image hinstrs k]

/-- A source assembles to the instructions it denotes, if their bytes are at most 256 (R87 to R95). -/
theorem assembleInstrs_eq_ok_iff {k : AluCodes} {lines : List (List Char)} {is : List Instr} :
    assembleInstrs k lines = .ok is ↔ (is.flatMap (encode k)).length ≤ 256 ∧ sourceDenotes k lines is := by
  have hpasses : ∀ parsed : List (Option Item), lines.map (parseLine k) = parsed.map Parsed.ok →
      (assembleInstrs k lines = .ok is ↔ (is.flatMap (encode k)).length ≤ 256 ∧
        (markNames (parsed.filterMap id)).Nodup ∧ instrsOf (parsed.filterMap id) is) := by
    intro parsed hparsed
    obtain ⟨herrors, hitems⟩ := parseLines_of_parsed hparsed 1
    rw [assembleInstrs_eq_ok, errors_pass1_eq_nil_iff, ← hitems]
    constructor
    · rintro ⟨-, ⟨hnames, -⟩, hout⟩
      obtain ⟨hlen, hinstrs⟩ := (pass2_pass1_eq_ok_iff hnames k is).mp hout
      exact ⟨hlen, hnames, hinstrs⟩
    · rintro ⟨hlen, hnames, hinstrs⟩
      exact ⟨herrors, ⟨hnames, fun _ _ => rfl⟩, (pass2_pass1_eq_ok_iff hnames k is).mpr ⟨hlen, hinstrs⟩⟩
  constructor
  · intro h
    obtain ⟨parsed, hparsed⟩ := parsed_of_parseLines (assembleInstrs_eq_ok.mp h).1
    obtain ⟨hlen, hnames, hinstrs⟩ := (hpasses parsed hparsed).mp h
    exact ⟨hlen, parsed, hparsed, hnames, hinstrs⟩
  · rintro ⟨hlen, parsed, hparsed, hnames, hinstrs⟩
    exact (hpasses parsed hparsed).mpr ⟨hlen, hnames, hinstrs⟩

/-- A blank line adds no item to a source (R81). -/
theorem sourceDenotes_insert_blank {k : AluCodes} {blank : List Char} (hblank : parseLine k blank = .ok none)
    (above below : List (List Char)) (is : List Instr) :
    sourceDenotes k (above ++ blank :: below) is ↔ sourceDenotes k (above ++ below) is := by
  constructor
  · rintro ⟨parsed, hparsed, hitems⟩
    rw [List.map_append, List.map_cons] at hparsed
    obtain ⟨parsedAbove, rest, rfl, habove, hrest⟩ := List.map_eq_append_iff.mp hparsed.symm
    obtain ⟨o, parsedBelow, rfl, ho, hbelow⟩ := List.map_eq_cons_iff.mp hrest
    obtain rfl : o = none := Parsed.ok.inj (ho.trans hblank)
    refine ⟨parsedAbove ++ parsedBelow, by rw [List.map_append, List.map_append, habove, hbelow], ?_⟩
    rwa [List.filterMap_append, List.filterMap_cons_none rfl, ← List.filterMap_append] at hitems
  · rintro ⟨parsed, hparsed, hitems⟩
    rw [List.map_append] at hparsed
    obtain ⟨parsedAbove, parsedBelow, rfl, habove, hbelow⟩ := List.map_eq_append_iff.mp hparsed.symm
    refine ⟨parsedAbove ++ none :: parsedBelow, ?_, ?_⟩
    · rw [List.map_append, List.map_cons, List.map_append, List.map_cons, habove, hbelow, hblank]
    · rwa [List.filterMap_append, List.filterMap_cons_none rfl, ← List.filterMap_append]

/-- What a sound item stands for is well formed and not `CMP`: its own instruction, or a jump. -/
theorem Item.sound.of_standsFor {k : AluCodes} {items : List Item} {it : Item} {i : Instr} (h : it.sound k)
    (hi : it.standsFor items i) : i.wf k ∧ ∀ ra rb, i ≠ .cmp ra rb := by
  cases it with
  | instr j => exact h i (congrArg Item.instr hi.symm)
  | jmpTo l => obtain ⟨off, -, -, rfl⟩ := hi; exact ⟨Instr.wf_of_asAlu_eq_none k rfl, nofun⟩
  | jifTo m l => obtain ⟨off, -, -, rfl⟩ := hi; exact ⟨Instr.wf_of_asAlu_eq_none k rfl, nofun⟩
  | mark name => cases hi

/-- Every instruction a program's items stand for is one that some item stands for. -/
theorem exists_standsFor_of_instrsOf {items : List Item} {is : List Instr} (h : instrsOf items is) {i : Instr}
    (hi : i ∈ is) : ∃ it ∈ items, it.standsFor items i := by
  obtain ⟨hlen, hpairs⟩ := h
  rw [← List.map_snd_zip hlen.ge, List.mem_map] at hi
  obtain ⟨p, hp, rfl⟩ := hi
  exact ⟨p.1, List.mem_of_mem_filter (List.of_mem_zip hp).1, hpairs p hp⟩

/-- A source denotes only well-formed instructions other than `CMP` (R90, R91). -/
theorem sound_of_sourceDenotes {k : AluCodes} {lines : List (List Char)} {is : List Instr}
    (h : sourceDenotes k lines is) : ∀ i ∈ is, i.wf k ∧ ∀ ra rb, i ≠ .cmp ra rb := by
  intro i hi
  obtain ⟨parsed, hparsed, -, hinstrs⟩ := h
  obtain ⟨it, hit, hstands⟩ := exists_standsFor_of_instrsOf hinstrs hi
  obtain ⟨o, ho, hsome⟩ := List.mem_filterMap.mp hit
  have hok : Parsed.ok (some it) ∈ lines.map (parseLine k) := by
    rw [hparsed]
    exact List.mem_map_of_mem (hsome ▸ ho)
  obtain ⟨line, -, hline⟩ := List.mem_map.mp hok
  exact (sound_of_parseLine hline).of_standsFor hstands

end Sys2Proof.Machine
end

section
/-! The obligations of 30_encoding.md section 4 on the assembler. -/

namespace Sys2Proof.Machine

/-- Settles O59: pass 1 binds each label to the offset of its `MARK`, so pass 2 makes of each item what it stands for. -/
theorem imageIsTheSourcesInstructions : Obligations.ImageIsTheSourcesInstructions := by
  unfold Obligations.ImageIsTheSourcesInstructions
  refine ⟨fun k lines img => ?_, length_encode, fun items it i => Item.size_eq_of_standsFor⟩
  rw [assembleLines_eq_ok]
  constructor
  · rintro ⟨is, his, rfl⟩
    obtain ⟨hlen, hdenotes⟩ := assembleInstrs_eq_ok_iff.mp his
    exact ⟨hlen, is, hdenotes, rfl⟩
  · rintro ⟨hlen, is, hdenotes, rfl⟩
    exact ⟨is, assembleInstrs_eq_ok_iff.mpr ⟨hlen, hdenotes⟩, rfl⟩

/-- Settles O56: what stands before the first `MARK` of a name leaves the name unbound, and what follows leaves it
bound. -/
theorem markBindsFollowingOffset : Obligations.MarkBindsFollowingOffset := by
  unfold Obligations.MarkBindsFollowingOffset
  intro before after n name hno
  rw [find?_pass1_first_mark rfl 0 n after hno, Nat.zero_add]

/-- Settles O57: a line's error is among the assembly's, and the comma and then the mnemonic are checked before operands. -/
theorem lineErrorsAreReported : Obligations.LineErrorsAreReported := by
  unfold Obligations.LineErrorsAreReported
  refine ⟨fun k lines j line e hj he => ?_, fun k line tok ops hcomma htok hcmp => ?_,
    fun k line => parseLine_of_comma k⟩
  · exact assembleLines_error_of_mem (Nat.add_comm 1 j ▸ mem_errors_parseLines hj he 1)
  · rw [parseLine_of_tokens k hcomma htok, parseMnemonic_cmp hcmp]
    simp only [Parsed.bind, parseOperands_cmp]

/-- Settles O58: a blank line parses to no item, so with and without it a source denotes the same instructions. -/
theorem blankLinesChangeNothing : Obligations.BlankLinesChangeNothing := by
  unfold Obligations.BlankLinesChangeNothing
  refine ⟨parseLine_comment, fun k above below blank img hblank => ?_⟩
  rw [imageIsTheSourcesInstructions.1, imageIsTheSourcesInstructions.1]
  simp only [sourceDenotes_insert_blank hblank]

/-- Settles O55: the image is the encodings of the instructions denoted, and each of them comes from a line that parsed. -/
theorem assembledImageDisassembles : Obligations.AssembledImageDisassembles := by
  unfold Obligations.AssembledImageDisassembles
  intro k source img hk h
  obtain ⟨hlen, is, hdenotes, rfl⟩ := (imageIsTheSourcesInstructions.1 k _ img).mp h
  have hsound := sound_of_sourceDenotes hdenotes
  exact ⟨hlen, is, hdenotes, disassemble_flatMap_encode hk fun i hi => (hsound i hi).1, rfl, hsound⟩

end Sys2Proof.Machine
end
